-- ==== Sys2Proof/Word.lean ====
section
/-! DEFINITION. The word types of the block: 32-bit words and limbs, bytes, window offsets, fault codes. -/

namespace Sys2Proof

/-- A 32-bit bus word: a control register, a command word, the data of a transaction (R41, R43). -/
abbrev Word := BitVec 32

/-- One 32-bit limb of a `W`-bit data register (R47). -/
abbrev Limb := BitVec 32

/-- One byte of a word, in the little-endian binding of R47. -/
abbrev Byte := BitVec 8

/-- A byte offset inside the 4 KiB register window (R40, R43). -/
abbrev Offset := BitVec 12

/-- The four bits of `STATUS.ERRCODE` (R19, R170). -/
abbrev ErrCode := BitVec 4

end Sys2Proof
end

