-- ==== Sys2Proof/Syntax.lean ====
section
/-! DEFINITION. The commands of the block: one constructor per row of the opcode table (R61). -/

namespace Sys2Proof

/-- The four commands. A command word carries no operand (R60, R63): the operands are always the
registers OP_A, OP_B, OP_C in fixed roles and the result always goes to RESULT (R15, R65). -/
inductive Instr where
  | isprime   -- ISPRIME, R80
  | gcd       -- GCD, R90
  | modinv    -- MODINV, R100
  | modexp    -- MODEXP, R115
  deriving DecidableEq, Repr

end Sys2Proof
end

