-- ==== Sys2Proof/WellFormed.lean ====
section
/-! DEFINITION. What is well formed: an instance's parameters, a command word, a command. -/

namespace Sys2Proof

/-- The limb counts an instance may have: `W = 32 * L` with `32 ≤ W ≤ 4096` (R4, U17). -/
def wellFormedLimbs (l : Nat) : Bool := decide (1 ≤ l) && decide (l ≤ 128)

/-- A window base is 4 KiB aligned (R4, R40, U17). -/
def wellFormedBase (base : Nat) : Bool := base % 4096 == 0

/-- A command word is legal if and only if bits 31:4 are zero and bits 3:0 are one of 1, 2, 3, 4
(R61, R66). -/
def wellFormedWord (w : Word) : Bool :=
  w.extractLsb' 4 28 == 0#28 &&
    (w.extractLsb' 0 4 == 1#4 || w.extractLsb' 0 4 == 2#4 || w.extractLsb' 0 4 == 3#4 ||
      w.extractLsb' 0 4 == 4#4)

/-- Every command is well formed: the format has no operand field to constrain (R60, R63). -/
def Instr.wellFormed : Instr → Bool
  | .isprime => true
  | .gcd => true
  | .modinv => true
  | .modexp => true

end Sys2Proof
end

