-- ==== Sys2Proof/Decode.lean ====
section
/-! DEFINITION. Decoding a command word (R60 to R62, R66) and, after it, the encoder. -/

namespace Sys2Proof

/-- Why bytes are no command, each under its own name (R66). -/
inductive DecodeError where
  /-- Fewer than the four bytes of a command word (R62). -/
  | truncated
  /-- Bits 31:4 are not zero (R60, R66). -/
  | upperBitsNonzero
  /-- Bits 3:0 are 0 or 5 to 15 (R66, R67). -/
  | reservedOpcode (op : BitVec 4)
  deriving DecidableEq, Repr

/-- `OPCODE`, bits 3:0 of a command word (R60). -/
def opcodeField (w : Word) : BitVec 4 := w.extractLsb' 0 4

/-- `ZERO`, bits 31:4 of a command word (R60). -/
def zeroField (w : Word) : BitVec 28 := w.extractLsb' 4 28

/-- The opcode map of R61. -/
def decodeOpcode (op : BitVec 4) : Option Instr :=
  if op = 0x1#4 then some .isprime
  else if op = 0x2#4 then some .gcd
  else if op = 0x3#4 then some .modinv
  else if op = 0x4#4 then some .modexp
  else none

/-- The decoder of R61 on one command word. -/
def decodeWord (w : Word) : Except DecodeError Instr :=
  if zeroField w = 0#28 then
    match decodeOpcode (opcodeField w) with
    | some i => .ok i
    | none => .error (.reservedOpcode (opcodeField w))
  else .error .upperBitsNonzero

/-- The word whose bytes are given, lowest address first: byte `k` is bits `[8k+7:8k]` (R47). -/
def wordOfBytes (b0 b1 b2 b3 : Byte) : Word := b3 ++ b2 ++ b1 ++ b0

/-- The bytes of a word, lowest address first (R47). -/
def bytesOfWord (w : Word) : List Byte :=
  [w.extractLsb' 0 8, w.extractLsb' 8 8, w.extractLsb' 16 8, w.extractLsb' 24 8]

/-- The decoder on bytes: total, and it returns the bytes after the command (R62: every command is
exactly one 32-bit word). -/
def decodeBytes : List Byte → Except DecodeError (Instr × List Byte)
  | b0 :: b1 :: b2 :: b3 :: rest =>
    match decodeWord (wordOfBytes b0 b1 b2 b3) with
    | .ok i => .ok (i, rest)
    | .error e => .error e
  | _ => .error .truncated

/-- The command word of each command (R61). -/
def encode : Instr → Word
  | .isprime => 0x00000001#32
  | .gcd => 0x00000002#32
  | .modinv => 0x00000003#32
  | .modexp => 0x00000004#32

/-- The command's four bytes, lowest address first. -/
def encodeBytes (i : Instr) : List Byte := bytesOfWord (encode i)

/-- The command the decoder reads from the table word `w` of `nbits` bits: bit 0 is the least
significant bit of the word, and every bit at or above `nbits` is taken as zero. -/
def decodeTableWord (nbits w : Nat) : Option Instr :=
  let v := w % 2 ^ nbits
  if v < 2 ^ 32 then
    match decodeBytes (bytesOfWord (BitVec.ofNat 32 v)) with
    | .ok (i, _) => some i
    | .error _ => none
  else none

end Sys2Proof
end

