-- ==== Sys2Proof/Config.lean ====
section
/-! DEFINITION. What an instance of the block fixes: the operand width and the place of its window (R4). -/

namespace Sys2Proof.Config

/-- `L`, the number of 32-bit limbs of a data register, of the instance that `State.reset` describes
(R4: `W = 32 * L`, an open parameter).
DESIGN CHOICE, unsafe for a statement about `State.reset` alone (log 1): the step is generic in `L`,
which State holds as the constant register CAP. -/
def limbs : Nat := 1

/-- Which 4 KiB page of the host's address space holds the window (R40: `BASE` is chosen by the
platform).  A free constant: no proof can see its value (log 2). -/
opaque windowPage : Nat

/-- `BASE`, the byte address of the register window: 4 KiB aligned (R4, R40). -/
def windowBase : Nat := 4096 * windowPage

end Sys2Proof.Config
end

