-- ==== Sys2Proof/Machine/State.lean ====
section
/-! DEFINITION. The state of the block (R10), the moves of its three agents (R9), and the state after
reset (R31). -/

namespace Sys2Proof.Machine

/-- The reasons the MODEL stops with a fault.  None of them is a fault of the block: the block's own
faults (R170) are next states with STATUS written. -/
inductive Fault where
  /-- Raised by the ISPRIME and MODEXP engine steps in stage LOOP when the divisor register (`wi`,
  `wc`) is 0: `fmod` by zero has no value (R6) and no rule reaches it.  No run reaches such a state.
  Safe (log 10). -/
  | remainderUndefined
  /-- Raised by `runToEnd` when its bound on the number of engine steps is used up.  No state reaches
  it (Laws/Termination.lean).  Safe (log 11). -/
  | engineNotFinished
  deriving DecidableEq, Repr

/-- The reasons the model has no meaning to give. -/
inductive Refusal where
  /-- Raised by `exec` alone, for a command that has no meaning yet.  Safe. -/
  | notModelled (mnemonic : String)
  /-- Raised by the engine's move when BUSY = 1 and CMD holds no command word, which R22 (e) rules out
  of every reachable state.  Safe (log 12). -/
  | noCommandInFlight (word : Word)
  deriving DecidableEq, Repr

/-- The position inside an operation (R25). -/
inductive Stage where
  | init
  | loop
  deriving DecidableEq, Repr

/-- The hidden working state of the engine (R25 to R27): unbounded integers, unreadable. -/
structure Engine where
  stage : Stage
  wa : Int
  wb : Int
  wc : Int
  wv : Int
  wi : Int
  wx0 : Int
  wx1 : Int
  wn0 : Int
  deriving DecidableEq, Repr

/-- The fields of STATUS (R19).  Its reserved bits read zero and ignore writes (R49), so they are no
state. -/
structure Status where
  busy : Bool
  done : Bool
  err : Bool
  wign : Bool
  errcode : ErrCode
  deriving DecidableEq, Repr

/-- The one field of CTRL (R17). -/
structure Ctrl where
  ie : Bool
  deriving DecidableEq, Repr

/-- The widths of host accesses (R44): only `word` is performed. -/
inductive Width where
  | byte
  | half
  | word
  /-- A 64-bit or wider access. -/
  | wide (bits : Nat)
  | burst (beats : Nat)
  deriving DecidableEq, Repr

/-- A host transaction (R43), with the width it is made at (R44). -/
inductive Transaction where
  | read (width : Width) (off : Offset)
  | write (width : Width) (off : Offset) (data : Word)
  deriving DecidableEq, Repr

/-- `OKAY` or `ERROR` (R43). -/
inductive Resp where
  | okay
  | error
  deriving DecidableEq, Repr

/-- What the port answers: `BusRead(off) -> (resp, data)`, `BusWrite(off, data) -> resp` (R43). -/
inductive BusResponse where
  | read (resp : Resp) (data : Word)
  | write (resp : Resp)
  deriving DecidableEq, Repr

/-- One move of one of the three agents (R9, R53). -/
inductive Event where
  /-- The host issues a transaction. -/
  | bus (t : Transaction)
  /-- The engine performs one step of R81, R91, R101 or R116: one loop iteration. -/
  | engine
  /-- The engine performs all the rest of the operation in flight in one step (R136). -/
  | engineRun
  /-- Reset (R190). -/
  | reset
  deriving DecidableEq, Repr

/-- The state: all that R10 gives the block, then the model's own two fields. -/
structure State where
  /-- `L`, the constant the register CAP shows (R16). -/
  limbs : Nat
  /-- OP_A, limb 0 first (R11, R47). -/
  opA : List Limb
  /-- OP_B (R12). -/
  opB : List Limb
  /-- OP_C (R13). -/
  opC : List Limb
  /-- RESULT (R14). -/
  result : List Limb
  /-- CTRL (R17). -/
  ctrl : Ctrl
  /-- CMD (R18). -/
  cmd : Word
  /-- STATUS (R19). -/
  status : Status
  /-- `stage` and the working registers (R25, R26). -/
  eng : Engine
  /-- The model's own: the moves of the agents still to come, first one first (R53, log 3). -/
  schedule : List Event
  /-- The model's own: the port's answer to the most recent transaction (R43, log 7). -/
  response : Option BusResponse
  deriving DecidableEq, Repr

/-- The hidden working state after reset: unspecified (R31, R193), and unobservable.
DESIGN CHOICE, unsafe (log 5): stage INIT and zeros. -/
def Engine.reset : Engine :=
  { stage := .init, wa := 0, wb := 0, wc := 0, wv := 0, wi := 0, wx0 := 0, wx1 := 0, wn0 := 0 }

/-- The state after reset of an instance with `l` limbs (R31, R190), with nothing scheduled. -/
def State.resetOf (l : Nat) : State :=
  { limbs := l
    opA := List.replicate l 0#32
    opB := List.replicate l 0#32
    opC := List.replicate l 0#32
    result := List.replicate l 0#32
    ctrl := { ie := false }
    cmd := 0#32
    status := { busy := false, done := false, err := false, wign := false, errcode := 0#4 }
    eng := Engine.reset
    schedule := []
    response := none }

/-- The machine right after reset (R31). -/
def State.reset : State := State.resetOf Config.limbs

end Sys2Proof.Machine
end

