-- ==== Sys2Proof/Machine/Flags.lean ====
section
/-! DEFINITION. Every update of STATUS and CTRL the spec gives (R17, R19 to R21, R139), the words the
host reads there (R49), the fault codes (R170) and the interrupt output (R29). -/

namespace Sys2Proof.Machine

/-- Code 0, NONE (R170). -/
def ErrCode.none : ErrCode := 0#4

/-- Code 1, ILLEGAL_CMD (R171). -/
def ErrCode.illegalCmd : ErrCode := 1#4

/-- Code 2, DIV_ZERO (R172). -/
def ErrCode.divZero : ErrCode := 2#4

/-- Code 3, RANGE (R173). -/
def ErrCode.range : ErrCode := 3#4

/-- Acceptance: BUSY set, DONE, ERR and ERRCODE cleared, WIGN kept (R133). -/
def Status.accepted (t : Status) : Status :=
  { t with busy := true, done := false, err := false, errcode := ErrCode.none }

/-- Normal completion (R137); WIGN kept. -/
def Status.completed (t : Status) : Status :=
  { t with busy := false, done := true, err := false, errcode := ErrCode.none }

/-- Fault completion with a code (R138); WIGN kept. -/
def Status.faulted (code : ErrCode) (t : Status) : Status :=
  { t with busy := false, done := true, err := true, errcode := code }

/-- Refusal of an illegal command while idle: BUSY and WIGN kept (R134). -/
def Status.refused (t : Status) : Status :=
  { t with done := true, err := true, errcode := ErrCode.illegalCmd }

/-- A write was ignored because BUSY = 1 (R51). -/
def Status.ignoredWrite (t : Status) : Status := { t with wign := true }

/-- A host write of `d` to STATUS: write-one-to-clear on bits 1 and 3, all else ignored (R139). -/
def Status.writeOneToClear (d : Word) (t : Status) : Status :=
  { t with
    done := t.done && !d.getLsbD 1
    wign := t.wign && !d.getLsbD 3 }

/-- The word a host reads at STATUS: bits 31:12 and 7:4 zero, ERRCODE in 11:8, then WIGN, ERR, DONE,
BUSY (R19, R49). -/
def Status.word (t : Status) : Word :=
  0#20 ++ t.errcode ++ 0#4 ++ BitVec.ofBool t.wign ++ BitVec.ofBool t.err ++ BitVec.ofBool t.done ++
    BitVec.ofBool t.busy

/-- The word a host reads at CTRL: IE in bit 0, bits 31:1 zero (R17, R49). -/
def Ctrl.word (c : Ctrl) : Word := 0#31 ++ BitVec.ofBool c.ie

/-- A host write of `d` to CTRL: `IE <- d[0]`, other bits ignored (R139). -/
def Ctrl.ofWord (d : Word) : Ctrl := { ie := d.getLsbD 0 }

/-- `irq = CTRL.IE AND STATUS.DONE`, a level (R29, R176). -/
def State.irq (s : State) : Bool := s.ctrl.ie && s.status.done

end Sys2Proof.Machine
end

