-- ==== Sys2Proof/Machine/Operands.lean ====
section
/-! DEFINITION. The integers of the data registers (R5, R47, R63, R65), their limbs (R48), and the
division of the four algorithms (R6, R141). -/

namespace Sys2Proof.Machine

/-- The unsigned value of a data register: limb `j` weighs `2^(32j)` (R47). -/
def uintW : List Limb → Nat
  | [] => 0
  | l :: ls => l.toNat + 2 ^ 32 * uintW ls

/-- The sign bit `R[W-1]`, bit 31 of the last limb (R47). -/
def signBit (ls : List Limb) : Bool := (ls.getLastD 0#32).msb

/-- `sint_W`: the integer a data register denotes (R5, R47). -/
def sintW (ls : List Limb) : Int :=
  (uintW ls : Int) - (if signBit ls then 2 ^ (32 * ls.length) else 0)

/-- `enc_W`: the two's complement limbs of an integer, least significant limb first (R5, R65). -/
def encW : Nat → Int → List Limb
  | 0, _ => []
  | l + 1, v => BitVec.ofInt 32 v :: encW l (v / 2 ^ 32)

/-- `rep_W(v)`: `v` is representable in the `W = 32 * l` bits of a data register (R5). -/
def repW (l : Nat) (v : Int) : Bool :=
  decide (-(2 ^ (32 * l - 1) : Int) ≤ v) && decide (v ≤ 2 ^ (32 * l - 1) - 1)

/-- The all-zero data register (R14, R31). -/
def zeroLimbs (l : Nat) : List Limb := List.replicate l 0#32

/-- The four data registers (R11 to R14). -/
inductive DataReg where
  | opA
  | opB
  | opC
  | result
  deriving DecidableEq, Repr

/-- The limbs of a data register. -/
def State.dataReg (s : State) : DataReg → List Limb
  | .opA => s.opA
  | .opB => s.opB
  | .opC => s.opC
  | .result => s.result

/-- Limb `j` of a data register, `R[32j+31:32j]` (R47, R48). -/
def State.readLimb (s : State) (r : DataReg) (j : Nat) : Limb := (s.dataReg r).getD j 0#32

/-- Writes limb `j` of an operand register and leaves every other bit as it was (R48).
RESULT is read-only to the host (R14): no host write comes here for it (`busWrite` refuses it first). -/
def State.writeLimb (s : State) (r : DataReg) (j : Nat) (d : Limb) : State :=
  match r with
  | .opA => { s with opA := s.opA.set j d }
  | .opB => { s with opB := s.opB.set j d }
  | .opC => { s with opC := s.opC.set j d }
  | .result => s

/-- `fdiv(a, b)`, the floor of the exact quotient, for `b ≠ 0` (R6, R141).  Every use is guarded:
no rule's value rests on `b = 0`. -/
def fdiv (a b : Int) : Int := Int.fdiv a b

/-- `fmod(a, b) = a - b * fdiv(a, b)`, zero or of the sign of `b`, for `b ≠ 0` (R6, R141). -/
def fmod (a b : Int) : Int := a - b * fdiv a b

end Sys2Proof.Machine
end

