-- ==== Sys2Proof/Machine/Ops.lean ====
section
/-! DEFINITION. The named operations every command and every transaction is made of: how an operation
starts and ends (R130 to R138), the register window (R40 to R52), reset (R190), and where the engine
finds the command in flight (R136). -/

namespace Sys2Proof.Machine

/-! ## How an operation starts and ends -/

/-- Acceptance of a legal command word (R133): the operands are sampled into the working registers.
It is also the return from a fault, the only one there is: it clears ERR and ERRCODE (R182). -/
def startOperation (word : Word) (s : State) : State :=
  { s with
    cmd := word
    status := s.status.accepted
    eng := { s.eng with stage := .init, wa := sintW s.opA, wb := sintW s.opB, wc := sintW s.opC } }

/-- Refusal of an illegal command word (R134): fault ILLEGAL_CMD, nothing starts. -/
def refuseCommand (word : Word) (s : State) : State :=
  { s with cmd := word, status := s.status.refused, result := zeroLimbs s.limbs }

/-- `fault(code)` (R138, R180): the one shared way a fault is taken.  Nothing is saved anywhere else,
no mode changes and control goes nowhere (R180). -/
def raiseFault (code : ErrCode) (s : State) : State :=
  { s with status := s.status.faulted code, result := zeroLimbs s.limbs }

/-- `complete(v)` (R137), with the RANGE guard of R173. -/
def complete (v : Int) (s : State) : State :=
  if repW s.limbs v then
    { s with status := s.status.completed, result := encW s.limbs v }
  else raiseFault ErrCode.range s

/-- A write of CMD (R130): ignored while busy; otherwise latched, decoded, and accepted or refused. -/
def issueCommand (word : Word) (s : State) : State :=
  if s.status.busy then { s with status := s.status.ignoredWrite }
  else
    match decodeBytes (bytesOfWord word) with
    | .ok _ => startOperation word s
    | .error _ => refuseCommand word s

/-! ## The register window -/

/-- What an offset of the window names (R41). -/
inductive Loc where
  | cap
  | ctrl
  | cmd
  | status
  | limb (r : DataReg) (j : Nat)
  deriving DecidableEq, Repr

/-- The register map of R41 at an aligned offset, for an instance with `l` limbs; `none` where the
offset is unmapped. -/
def locOf (l : Nat) (off : Offset) : Option Loc :=
  let o := off.toNat
  if o = 0x000 then some .cap
  else if o = 0x004 then some .ctrl
  else if o = 0x008 then some .cmd
  else if o = 0x00C then some .status
  else if 0x200 ≤ o ∧ o < 0x200 + 4 * l ∧ o < 0x400 then some (.limb .opA ((o - 0x200) / 4))
  else if 0x400 ≤ o ∧ o < 0x400 + 4 * l ∧ o < 0x600 then some (.limb .opB ((o - 0x400) / 4))
  else if 0x600 ≤ o ∧ o < 0x600 + 4 * l ∧ o < 0x800 then some (.limb .opC ((o - 0x600) / 4))
  else if 0x800 ≤ o ∧ o < 0x800 + 4 * l then some (.limb .result ((o - 0x800) / 4))
  else none

/-- `CAP[15:0] = L`, `CAP[31:16] = 0` (R16). -/
def capWord (l : Nat) : Word := 0#16 ++ BitVec.ofNat 16 l

/-- The word a location reads as; reads have no side effects (R50). -/
def State.readLoc (s : State) : Loc → Word
  | .cap => capWord s.limbs
  | .ctrl => s.ctrl.word
  | .cmd => s.cmd
  | .status => s.status.word
  | .limb r j => s.readLimb r j

/-- The only access the block performs: 32 bits wide at a multiple of 4 (R44). -/
def performed (width : Width) (off : Offset) : Bool :=
  width == .word && off.extractLsb' 0 2 == 0#2

/-- The location an access reaches, if it is performed (R44) and mapped (R45), in the order of R179. -/
def accessLoc (l : Nat) (width : Width) (off : Offset) : Option Loc :=
  if performed width off then locOf l off else none

/-- A host write to CAP or RESULT answers ERROR (R46). -/
def Loc.hostWritable : Loc → Bool
  | .cap => false
  | .ctrl => true
  | .cmd => true
  | .status => true
  | .limb .result _ => false
  | .limb .opA _ => true
  | .limb .opB _ => true
  | .limb .opC _ => true

/-- The effect of an accepted host write on a location (R51, R52, R130, R139). -/
def State.writeLoc (s : State) (d : Word) : Loc → State
  | .cap => s
  | .ctrl => { s with ctrl := Ctrl.ofWord d }
  | .cmd => issueCommand d s
  | .status => { s with status := s.status.writeOneToClear d }
  | .limb r j =>
    if s.status.busy then { s with status := s.status.ignoredWrite } else s.writeLimb r j d

/-- `BusRead(off)` (R43): ERROR and zero data where the access is not performed or not mapped. -/
def busRead (width : Width) (off : Offset) (s : State) : State :=
  match accessLoc s.limbs width off with
  | some loc => { s with response := some (.read .okay (s.readLoc loc)) }
  | none => { s with response := some (.read .error 0#32) }

/-- `BusWrite(off, data)` (R43), the checks in the order of R179. -/
def busWrite (width : Width) (off : Offset) (d : Word) (s : State) : State :=
  match accessLoc s.limbs width off with
  | some loc =>
    if loc.hostWritable then { s.writeLoc d loc with response := some (.write .okay) }
    else { s with response := some (.write .error) }
  | none => { s with response := some (.write .error) }

/-- One host transaction, one atomic step (R43, R53). -/
def transact (t : Transaction) (s : State) : State :=
  match t with
  | .read width off => busRead width off s
  | .write width off d => busWrite width off d s

/-- The window offset of a byte address of the host, if the window holds it (R40, R42). -/
def offsetOfAddress (addr : Nat) : Option Offset :=
  if Config.windowBase ≤ addr ∧ addr < Config.windowBase + 4096 then
    some (BitVec.ofNat 12 (addr - Config.windowBase))
  else none

/-- The byte at a window offset as a byte-addressed platform binds it: byte `k` of a word is bits
`[8k+7:8k]` (R47); `none` where the offset is unmapped.  The block itself performs no byte access. -/
def State.windowByte (s : State) (off : Offset) : Option Byte :=
  match locOf s.limbs (BitVec.ofNat 12 (4 * (off.toNat / 4))) with
  | some loc => some ((s.readLoc loc).extractLsb' (8 * (off.toNat % 4)) 8)
  | none => none

/-! ## Reset, and the command in flight -/

/-- Reset (R190): every host-visible register zero, CAP unchanged, an operation in flight abandoned
(R191).  The other agents' moves still to come are not part of the block. -/
def resetBlock (s : State) : State := { State.resetOf s.limbs with schedule := s.schedule }

/-- The bytes of the command in flight, where the engine finds it (R18, R136). -/
def State.commandBytes (s : State) : List Byte := bytesOfWord s.cmd

/-- The command in flight, as the decoder reads it from CMD (R136). -/
def State.commandInFlight (s : State) : Option Instr :=
  match decodeBytes s.commandBytes with
  | .ok (i, _) => some i
  | .error _ => none

end Sys2Proof.Machine
end

