-- ==== Sys2Proof/Machine/Engine.lean ====
section
/-! DEFINITION. What the four commands share: an operation's engine steps run one after another to its
completion (R136), and the outcome type of the document's whole-operation functions (R7, R80). -/

namespace Sys2Proof.Machine

/-- What `Exec_<CMD>` returns: `Done(v)` or `Fault(code)` (R80, R90, R100, R115). -/
inductive OpResult where
  | done (v : Int)
  | fault (code : ErrCode)
  deriving DecidableEq, Repr

/-- How an operation ends, given what `Exec_<CMD>` returns: `complete(v)` or `fault(code)` (R80, R100). -/
def OpResult.finish (r : OpResult) (s : State) : State :=
  match r with
  | .done v => complete v s
  | .fault code => raiseFault code s

/-- Engine steps, one after another, until one of them ends the operation (BUSY = 0), at most `bound`
of them (R136). -/
def runToEnd (engineStep : State → Host.Outcome State Fault Refusal) :
    Nat → State → Host.Outcome State Fault Refusal
  | 0, _ => .fault .engineNotFinished
  | bound + 1, s =>
    match engineStep s with
    | .next t => if t.status.busy then runToEnd engineStep bound t else .next t
    | .fault f => .fault f
    | .refused r => .refused r

/-- All the rest of the operation in flight as one engine step, which R136 allows because no host
transaction can see or change what the steps between touch.  While BUSY = 0 the engine does nothing
(R136). -/
def runOperation (engineStep : State → Host.Outcome State Fault Refusal) (bound : Nat) (s : State) :
    Host.Outcome State Fault Refusal :=
  if s.status.busy then runToEnd engineStep bound s else .next s

end Sys2Proof.Machine
end

