-- ==== Sys2Proof/Machine/Gcd.lean ====
section
/-! DEFINITION. GCD, the Euclidean greatest common divisor (R90 to R94). -/

namespace Sys2Proof.Machine

/-- `Exec_GCD(x, y)` (R90), at most `bound` tests of its loop condition; `none` if they do not
suffice. -/
def gcdLoop : Nat → Int → Int → Option OpResult
  | 0, _, _ => none
  | bound + 1, x, y => if y = 0 then some (.done x) else gcdLoop bound y (fmod x y)

/-- `Exec_GCD(x, y)` (R90): the second component's magnitude strictly decreases (R93 (a)). -/
def gcdFunction (x y : Int) : Option OpResult := gcdLoop (y.natAbs + 1) x y

/-- One engine step of GCD (R91). -/
def gcdStep (s : State) : Host.Outcome State Fault Refusal :=
  match s.eng.stage with
  | .init => .next { s with eng := { s.eng with stage := .loop } }
  | .loop =>
    if s.eng.wb = 0 then .next (complete s.eng.wa s)
    else .next { s with eng := { s.eng with wa := s.eng.wb, wb := fmod s.eng.wa s.eng.wb } }

/-- More engine steps than GCD can take from `s` (R93 (a)). -/
def gcdBound (s : State) : Nat := s.eng.wb.natAbs + 2

/-- GCD: the operation in flight to its end (R90). -/
def execGcd (s : State) : Host.Outcome State Fault Refusal :=
  runOperation gcdStep (gcdBound s) s

end Sys2Proof.Machine
end

