-- ==== Sys2Proof/Machine/Modexp.lean ====
section
/-! DEFINITION. MODEXP, modular exponentiation by square-and-multiply (R115 to R121). -/

namespace Sys2Proof.Machine

/-- The conditional multiply of one iteration (R115): with the base from before the squaring, and only
if the exponent is odd. -/
def modexpMultiply (v b e m : Int) : Int := if fmod e 2 = 1 then fmod (v * b) m else v

/-- The `while` of `Exec_MODEXP` (R115), at most `bound` tests of its condition; `none` if they do not
suffice. -/
def modexpLoop (m : Int) : Nat → Int → Int → Int → Option OpResult
  | 0, _, _, _ => none
  | bound + 1, v, b, e =>
    if e > 0 then modexpLoop m bound (modexpMultiply v b e m) (fmod (b * b) m) (fdiv e 2)
    else some (.done v)

/-- `Exec_MODEXP(b, e, m)` (R115). -/
def modexpFunction (b e m : Int) : Option OpResult :=
  if m = 0 then some (.fault ErrCode.divZero) else modexpLoop m (e.toNat + 1) 1 (fmod b m) e

/-- One engine step of MODEXP (R116). -/
def modexpStep (s : State) : Host.Outcome State Fault Refusal :=
  match s.eng.stage with
  | .init =>
    let s' := { s with eng := { s.eng with wv := 1 } }
    if s.eng.wc = 0 then .next (raiseFault ErrCode.divZero s')
    else .next { s' with eng := { s'.eng with wa := fmod s.eng.wa s.eng.wc, stage := .loop } }
  | .loop =>
    if s.eng.wb > 0 then
      if s.eng.wc = 0 then .fault .remainderUndefined
      else
        .next { s with
          eng := { s.eng with
            wv := modexpMultiply s.eng.wv s.eng.wa s.eng.wb s.eng.wc
            wa := fmod (s.eng.wa * s.eng.wa) s.eng.wc
            wb := fdiv s.eng.wb 2 } }
    else .next (complete s.eng.wv s)

/-- More engine steps than MODEXP can take from `s`: the exponent is halved at each (R120). -/
def modexpBound (s : State) : Nat := s.eng.wb.toNat + 3

/-- MODEXP: the operation in flight to its end (R115). -/
def execModexp (s : State) : Host.Outcome State Fault Refusal :=
  runOperation modexpStep (modexpBound s) s

end Sys2Proof.Machine
end

