-- ==== Sys2Proof/Machine/Modinv.lean ====
section
/-! DEFINITION. MODINV, the modular inverse by the extended-Euclidean variant (R100 to R108). -/

namespace Sys2Proof.Machine

/-- The `while` of `Exec_MODINV` (R100) and the final correction, at most `bound` tests of the loop
condition; `none` if they do not suffice.  Both rotations use the values from before the iteration. -/
def modinvLoop (n0 : Int) : Nat → Int → Int → Int → Int → Option OpResult
  | 0, _, _, _, _ => none
  | bound + 1, a, n, x0, x1 =>
    if a > 1 then
      if n = 0 then some (.fault ErrCode.divZero)
      else modinvLoop n0 bound n (fmod a n) (x1 - fdiv a n * x0) x0
    else if x1 < 0 then some (.done (x1 + n0))
    else some (.done x1)

/-- `Exec_MODINV(a, n)` (R100). -/
def modinvFunction (a n : Int) : Option OpResult :=
  if n = 1 then some (.done 0) else modinvLoop n (n.natAbs + 2) a n 0 1

/-- One engine step of MODINV (R101); the quotient is local to the step. -/
def modinvStep (s : State) : Host.Outcome State Fault Refusal :=
  match s.eng.stage with
  | .init =>
    let s' := { s with eng := { s.eng with wn0 := s.eng.wb, wx0 := 0, wx1 := 1 } }
    if s.eng.wb = 1 then .next (complete 0 s')
    else .next { s' with eng := { s'.eng with stage := .loop } }
  | .loop =>
    if s.eng.wa > 1 then
      if s.eng.wb = 0 then .next (raiseFault ErrCode.divZero s)
      else
        let q := fdiv s.eng.wa s.eng.wb
        .next { s with
          eng := { s.eng with
            wb := fmod s.eng.wa s.eng.wb
            wa := s.eng.wb
            wx0 := s.eng.wx1 - q * s.eng.wx0
            wx1 := s.eng.wx0 } }
    else if s.eng.wx1 < 0 then .next (complete (s.eng.wx1 + s.eng.wn0) s)
    else .next (complete s.eng.wx1 s)

/-- More engine steps than MODINV can take from `s` (R107). -/
def modinvBound (s : State) : Nat := s.eng.wb.natAbs + 3

/-- MODINV: the operation in flight to its end (R100). -/
def execModinv (s : State) : Host.Outcome State Fault Refusal :=
  runOperation modinvStep (modinvBound s) s

end Sys2Proof.Machine
end

