-- ==== Sys2Proof/Machine/Primality.lean ====
section
/-! DEFINITION. ISPRIME, the trial-division primality test (R80 to R84). -/

namespace Sys2Proof.Machine

/-- The `while` of `Exec_ISPRIME` (R80) from divisor `i`, at most `bound` tests of its condition;
`none` if they do not suffice. -/
def isprimeLoop (p : Int) : Nat → Int → Option OpResult
  | 0, _ => none
  | bound + 1, i =>
    if i * i ≤ p then
      if fmod p i = 0 then some (.done 0) else isprimeLoop p bound (i + 1)
    else some (.done 1)

/-- `Exec_ISPRIME(p)` (R80).  The bound is tested as `i * i ≤ p`, exactly (R82). -/
def isprimeFunction (p : Int) : Option OpResult :=
  if p ≤ 1 then some (.done 0) else isprimeLoop p (p.toNat + 1) 2

/-- One engine step of ISPRIME (R81). -/
def isprimeStep (s : State) : Host.Outcome State Fault Refusal :=
  match s.eng.stage with
  | .init =>
    let s' := { s with eng := { s.eng with wi := 2 } }
    if s.eng.wa ≤ 1 then .next (complete 0 s')
    else .next { s' with eng := { s'.eng with stage := .loop } }
  | .loop =>
    if s.eng.wi * s.eng.wi > s.eng.wa then .next (complete 1 s)
    else if s.eng.wi = 0 then .fault .remainderUndefined
    else if fmod s.eng.wa s.eng.wi = 0 then .next (complete 0 s)
    else .next { s with eng := { s.eng with wi := s.eng.wi + 1 } }

/-- More engine steps than ISPRIME can take from `s`: the divisor rises by one at each (R83 (a)). -/
def isprimeBound (s : State) : Nat := s.eng.wa.toNat + s.eng.wi.natAbs + 3

/-- ISPRIME: the operation in flight to its end (R80). -/
def execIsprime (s : State) : Host.Outcome State Fault Refusal :=
  runOperation isprimeStep (isprimeBound s) s

end Sys2Proof.Machine
end

