-- ==== Sys2Proof/Machine/Dispatch.lean ====
section
/-! DEFINITION. The meaning of each command: the operation in flight, run to its end (R136, by the opcode in CMD[3:0]). -/

namespace Sys2Proof.Machine

def exec (i : Instr) (s : State) : Host.Outcome State Fault Refusal :=
  match i with
  | .isprime => Sys2Proof.Machine.execIsprime s
  | .gcd => Sys2Proof.Machine.execGcd s
  | .modinv => Sys2Proof.Machine.execModinv s
  | .modexp => Sys2Proof.Machine.execModexp s

end Sys2Proof.Machine
end

