-- ==== Sys2Proof/Machine/EngineMove.lean ====
section
/-! DEFINITION. The engine's two moves: one engine step of the command in flight, or all of its rest
(R136). -/

namespace Sys2Proof.Machine

/-- The engine step the operation in flight prescribes for the current stage (R136). -/
def engineStepOf (i : Instr) (s : State) : Host.Outcome State Fault Refusal :=
  match i with
  | .isprime => isprimeStep s
  | .gcd => gcdStep s
  | .modinv => modinvStep s
  | .modexp => modexpStep s

/-- One engine step of the command in CMD; nothing while BUSY = 0 (R136). -/
def engineMove (s : State) : Host.Outcome State Fault Refusal :=
  if s.status.busy then
    match s.commandInFlight with
    | some i => engineStepOf i s
    | none => .refused (.noCommandInFlight s.cmd)
  else .next s

/-- All the rest of the operation in flight in one step (R136, R209); nothing while BUSY = 0. -/
def engineRunMove (s : State) : Host.Outcome State Fault Refusal :=
  if s.status.busy then
    match s.commandInFlight with
    | some i => exec i s
    | none => .refused (.noCommandInFlight s.cmd)
  else .next s

/-- One scheduled move of one agent (R9, R53). -/
def move (e : Event) (s : State) : Host.Outcome State Fault Refusal :=
  match e with
  | .bus t => .next (transact t s)
  | .engine => engineMove s
  | .engineRun => engineRunMove s
  | .reset => .next (resetBlock s)

end Sys2Proof.Machine
end

