-- ==== Sys2Proof/Machine/Step.lean ====
section
/-! DEFINITION. One step of the machine: the next scheduled move of an agent; with nothing scheduled,
the engine's (R53, R209). -/

namespace Sys2Proof.Machine

/-- One step.  The schedule says which agent moves next (R9, R53, log 3).  With nothing scheduled the
engine, which is never postponed for ever (R209), runs the operation in flight to its end, and an idle
block stays as it is. -/
def step (s : State) : Host.Outcome State Fault Refusal :=
  match s.schedule with
  | [] => engineRunMove s
  | e :: rest => move e { s with schedule := rest }

/-- `s` with the command word `w` in CMD, where the engine finds the command in flight (R136), as its
acceptance leaves it (R133: BUSY set, operands sampled, stage INIT), and the engine next to move. -/
def State.withFetchWord (s : State) (nbits w : Nat) : State :=
  { startOperation (BitVec.ofNat 32 (w % 2 ^ nbits)) s with schedule := .engineRun :: s.schedule }

end Sys2Proof.Machine
end

