-- ==== Sys2Proof/Machine/HostSequences.lean ====
section
/-! DEFINITION. The host notation (R68 to R72) and the host procedures FIND_E, GENKEY, ENCRYPT and
DECRYPT (R150 to R161), as functions over the block's state.  They are software: each only issues
transactions and lets the engine run.  They assume they own the block (R161): no reset and no other
host's transaction comes between their first and their last transaction (log 14). -/

namespace Sys2Proof.Machine

/-- Why a host procedure returns no value. -/
inductive HostStop where
  /-- A transaction answered ERROR: the program ends in error (R68). -/
  | busError
  /-- LDOP of an integer without `rep_W` has no expansion (R69, R159, U13). -/
  | notRepresentable
  /-- The model's engine stopped; no run reaches it (log 10, log 11, log 12). -/
  | blockStopped
  /-- FIND_E has tried as many candidates as its bound and found none (R151, U5, log 14). -/
  | noReturn
  /-- InvalidInput: an argument is not an integer (R153, R160). -/
  | invalidInput
  /-- NotPrime (R154). -/
  | notPrime
  /-- EqualFactors (R154). -/
  | equalFactors
  deriving DecidableEq, Repr

/-! ## Primitive statements (R68) -/

/-- `WR <loc>, <data>`. -/
def hostWrite (off : Offset) (d : Word) (s : State) : Except HostStop State :=
  let t := transact (.write .word off d) s
  if t.response = some (.write .okay) then .ok t else .error .busError

/-- `RD <loc> -> <name>`. -/
def hostRead (off : Offset) (s : State) : Except HostStop (Word × State) :=
  let t := transact (.read .word off) s
  match t.response with
  | some (.read .okay d) => .ok (d, t)
  | _ => .error .busError

/-- The symbolic locations of R68: the offset of limb `j` of a data register. -/
def limbOffset (r : DataReg) (j : Nat) : Offset :=
  match r with
  | .opA => BitVec.ofNat 12 (0x200 + 4 * j)
  | .opB => BitVec.ofNat 12 (0x400 + 4 * j)
  | .opC => BitVec.ofNat 12 (0x600 + 4 * j)
  | .result => BitVec.ofNat 12 (0x800 + 4 * j)

/-- CAP (R68). -/
def capOffset : Offset := 0x000#12
/-- CTRL (R68). -/
def ctrlOffset : Offset := 0x004#12
/-- CMD (R68). -/
def cmdOffset : Offset := 0x008#12
/-- STATUS (R68). -/
def statusOffset : Offset := 0x00C#12

/-! ## Macro statements (R69) -/

/-- Writes limbs `j`, `j+1`, … of an operand register. -/
def hostWriteLimbs (r : DataReg) : Nat → List Limb → State → Except HostStop State
  | _, [], s => .ok s
  | j, d :: ds, s =>
    match hostWrite (limbOffset r j) d s with
    | .ok t => hostWriteLimbs r (j + 1) ds t
    | .error x => .error x

/-- `LDOP <R>, <v>`: all `L` limbs of `enc_W(v)`, limb 0 first; undefined without `rep_W(v)`. -/
def hostLoad (r : DataReg) (v : Int) (s : State) : Except HostStop State :=
  if repW s.limbs v then hostWriteLimbs r 0 (encW s.limbs v) s else .error .notRepresentable

/-- `START <mnemonic>`. -/
def hostStart (i : Instr) (s : State) : Except HostStop State := hostWrite cmdOffset (encode i) s

/-- `WAIT`: read STATUS until BUSY reads 0.  The engine, never postponed for ever (R209), runs the
operation in flight to its end; only the last read is made (the earlier ones change nothing, R50). -/
def hostWait (s : State) : Except HostStop State :=
  match engineRunMove s with
  | .next t =>
    match hostRead statusOffset t with
    | .ok (_, u) => .ok u
    | .error x => .error x
  | .fault _ => .error .blockStopped
  | .refused _ => .error .blockStopped

/-- `GETERR -> <e>`: ERRCODE if ERR reads 1, else 0. -/
def hostGetError (s : State) : Except HostStop (ErrCode × State) :=
  match hostRead statusOffset s with
  | .ok (d, t) => .ok (if d.getLsbD 2 then d.extractLsb' 8 4 else 0#4, t)
  | .error x => .error x

/-- Reads `n` limbs of RESULT from limb `j` on. -/
def hostReadLimbs : Nat → Nat → State → Except HostStop (List Limb × State)
  | 0, _, s => .ok ([], s)
  | n + 1, j, s =>
    match hostRead (limbOffset .result j) s with
    | .ok (d, t) =>
      match hostReadLimbs n (j + 1) t with
      | .ok (ds, u) => .ok (d :: ds, u)
      | .error x => .error x
    | .error x => .error x

/-- `GETRES -> <r>`: all `L` limbs of RESULT, as `sint_W`. -/
def hostGetResult (s : State) : Except HostStop (Int × State) :=
  match hostReadLimbs s.limbs 0 s with
  | .ok (ds, t) => .ok (sintW ds, t)
  | .error x => .error x

/-- `CLRDONE`. -/
def hostClearDone (s : State) : Except HostStop State := hostWrite statusOffset 0x00000002#32 s
/-- `CLRWIGN`. -/
def hostClearWign (s : State) : Except HostStop State := hostWrite statusOffset 0x00000008#32 s
/-- `IRQON`. -/
def hostIrqOn (s : State) : Except HostStop State := hostWrite ctrlOffset 0x00000001#32 s
/-- `IRQOFF`. -/
def hostIrqOff (s : State) : Except HostStop State := hostWrite ctrlOffset 0x00000000#32 s

/-! ## Pseudo-commands (R70, R71) -/

/-- The `LDOP` statements of a call, in order. -/
def hostLoadAll : List (DataReg × Int) → State → Except HostStop State
  | [], s => .ok s
  | (r, v) :: rest, s =>
    match hostLoad r v s with
    | .ok t => hostLoadAll rest t
    | .error x => .error x

/-- `START; WAIT; GETERR -> e; GETRES -> r`: the outcome `(e, r)` of the command (R70). -/
def hostCollect (i : Instr) (s : State) : Except HostStop ((ErrCode × Int) × State) :=
  match hostStart i s with
  | .error x => .error x
  | .ok s1 =>
    match hostWait s1 with
    | .error x => .error x
    | .ok s2 =>
      match hostGetError s2 with
      | .error x => .error x
      | .ok (e, s3) =>
        match hostGetResult s3 with
        | .error x => .error x
        | .ok (r, s4) => .ok ((e, r), s4)

/-- A pseudo-command: load, start, wait and collect (R70). -/
def hostCall (i : Instr) (operands : List (DataReg × Int)) (s : State) :
    Except HostStop ((ErrCode × Int) × State) :=
  match hostLoadAll operands s with
  | .ok t => hostCollect i t
  | .error x => .error x

/-- `ISPRIME(p) -> r`. -/
def hostIsprime (p : Int) (s : State) : Except HostStop ((ErrCode × Int) × State) :=
  hostCall .isprime [(.opA, p)] s

/-- `GCD(x, y) -> r`. -/
def hostGcd (x y : Int) (s : State) : Except HostStop ((ErrCode × Int) × State) :=
  hostCall .gcd [(.opA, x), (.opB, y)] s

/-- `MODINV(a, n) -> r`. -/
def hostModinv (a n : Int) (s : State) : Except HostStop ((ErrCode × Int) × State) :=
  hostCall .modinv [(.opA, a), (.opB, n)] s

/-- `MODEXP(b, x, m) -> r`. -/
def hostModexp (b e m : Int) (s : State) : Except HostStop ((ErrCode × Int) × State) :=
  hostCall .modexp [(.opA, b), (.opB, e), (.opC, m)] s

/-- A key: the modulus, then the public or private exponent; nothing tags which (R152). -/
structure Key where
  n : Int
  exponent : Int
  deriving DecidableEq, Repr

/-- `ENCRYPT(m, (n, e)) -> c` is exactly `MODEXP(m, e, n) -> c` (R71, R157). -/
def hostEncrypt (m : Int) (key : Key) (s : State) : Except HostStop ((ErrCode × Int) × State) :=
  hostModexp m key.exponent key.n s

/-- `DECRYPT(c, (n, d)) -> m` is exactly `MODEXP(c, d, n) -> m` (R71, R157). -/
def hostDecrypt (c : Int) (key : Key) (s : State) : Except HostStop ((ErrCode × Int) × State) :=
  hostModexp c key.exponent key.n s

/-! ## Public-exponent search and keypair generation (R150 to R156) -/

/-- The `loop` of `FIND_E(k)` from candidate `e` (R150), at most `bound` candidates.  The document sets
no bound and adds no guard (R151); the model's bound only makes the function total (log 14). -/
def findELoop (k : Int) : Nat → Int → State → Except HostStop (Int × State)
  | 0, _, _ => .error .noReturn
  | bound + 1, e, s =>
    match hostGcd e k s with
    | .error x => .error x
    | .ok ((_, g), t) => if g = 1 then .ok (e, t) else findELoop k bound (e + 1) t

/-- `FIND_E(k)` (R150), given up after `bound` candidates. -/
def findE (bound : Nat) (k : Int) (s : State) : Except HostStop (Int × State) := findELoop k bound 2 s

/-- An argument of GENKEY as the host's language may hold it (R160). -/
inductive HostValue where
  | integer (v : Int)
  | other
  deriving DecidableEq, Repr

/-- `GENKEY(p, q)` for integers (R153): primality of both, then distinctness, then the keys, public
key first (R154).
R153 needs `rep_W(n)` and gives no outcome without it.  DESIGN CHOICE, unsafe (log 21): `n` is host
arithmetic that no transaction loads, so it is not tested; where every value the commands load fits,
the keys are returned although ENCRYPT and DECRYPT cannot then load `n`. -/
def genkeyIntegers (bound : Nat) (p q : Int) (s : State) : Except HostStop ((Key × Key) × State) :=
  match hostIsprime p s with
  | .error x => .error x
  | .ok ((_, r1), s1) =>
    match hostIsprime q s1 with
    | .error x => .error x
    | .ok ((_, r2), s2) =>
      if r1 = 0 ∨ r2 = 0 then .error .notPrime
      else if p = q then .error .equalFactors
      else
        let n := p * q
        let k := (p - 1) * (q - 1)
        match findE bound k s2 with
        | .error x => .error x
        | .ok (e, s3) =>
          match hostModinv e k s3 with
          | .error x => .error x
          | .ok ((_, d), s4) =>
            .ok (({ n := n, exponent := e }, { n := n, exponent := d }), s4)

/-- `GENKEY(p, q)` (R153): the type check first (R154, R160). -/
def genkey (bound : Nat) (p q : HostValue) (s : State) : Except HostStop ((Key × Key) × State) :=
  match p, q with
  | .integer p, .integer q => genkeyIntegers bound p q s
  | .other, _ => .error .invalidInput
  | .integer _, .other => .error .invalidInput

end Sys2Proof.Machine
end

