-- ==== Sys2Proof/Safety.lean ====
section
/-! DEFINITION. What every reachable state of the block satisfies (R22), and what a host cannot tell
apart (R26, R193), and how an operation's end looks to it (R137, R138, R70). -/

namespace Sys2Proof.Machine

/-- The data registers have the instance's width (R4, R10). -/
abbrev State.RegsWf (s : State) : Prop :=
  wellFormedLimbs s.limbs = true ∧ s.opA.length = s.limbs ∧ s.opB.length = s.limbs ∧
    s.opC.length = s.limbs ∧ s.result.length = s.limbs

/-- R22 (a) to (d) and the legality of the command in flight, R22 (e). -/
abbrev State.StatusWf (s : State) : Prop :=
  (s.status.busy = true →
      s.status.done = false ∧ s.status.err = false ∧ s.status.errcode = ErrCode.none) ∧
    (s.status.err = true ↔ s.status.errcode ≠ ErrCode.none) ∧
    s.status.errcode.toNat ≤ 3 ∧
    (s.status.err = true → s.result = zeroLimbs s.limbs) ∧
    (s.status.busy = true → wellFormedWord s.cmd = true)

/-- What the working registers of the command `i` in flight satisfy: in stage INIT they are the
operands as accepted (R133); in stage LOOP the registers an operation keeps still are (R22 (f), R27),
and the divisor registers are not zero (R81, R116). -/
def State.engineWf (s : State) (i : Instr) : Bool :=
  match s.eng.stage with
  | .init =>
    decide (s.eng.wa = sintW s.opA) && decide (s.eng.wb = sintW s.opB) &&
      decide (s.eng.wc = sintW s.opC)
  | .loop =>
    match i with
    | .isprime => decide (s.eng.wa = sintW s.opA) && decide (2 ≤ s.eng.wa) && decide (2 ≤ s.eng.wi)
    | .gcd => true
    | .modinv => decide (s.eng.wn0 = sintW s.opB)
    | .modexp => decide (s.eng.wc = sintW s.opC) && decide (s.eng.wc ≠ 0)

/-- While BUSY = 1, CMD holds a command and the working registers are that command's. -/
def State.operationWf (s : State) : Bool :=
  !s.status.busy ||
    match s.commandInFlight with
    | some i => s.engineWf i
    | none => false

/-- The invariant of the block: its registers have the instance's width, R22 (a) to (f), and the
working registers are those of the operation in flight. -/
structure State.Inv (s : State) : Prop where
  regs : s.RegsWf
  status : s.StatusWf
  operation : s.operationWf = true

/-- What is left of a state when the hidden working state is put out of sight (R26). -/
def State.hideEngine (s : State) : State := { s with eng := Engine.reset }

/-- The working registers that hold anything in an operation of the command `i`, the others put out of
sight: in stage INIT what acceptance loads (R133), in stage LOOP the registers of R27. -/
def Engine.meaningful (i : Instr) (e : Engine) : Engine :=
  match e.stage with
  | .init => { Engine.reset with stage := .init, wa := e.wa, wb := e.wb, wc := e.wc }
  | .loop =>
    match i with
    | .isprime => { Engine.reset with stage := .loop, wa := e.wa, wi := e.wi }
    | .gcd => { Engine.reset with stage := .loop, wa := e.wa, wb := e.wb }
    | .modinv =>
      { Engine.reset with
        stage := .loop, wa := e.wa, wb := e.wb, wn0 := e.wn0, wx0 := e.wx0, wx1 := e.wx1 }
    | .modexp =>
      { Engine.reset with stage := .loop, wa := e.wa, wb := e.wb, wc := e.wc, wv := e.wv }

/-- Two states no host can tell apart: they agree on everything but the hidden working state, and
while BUSY = 1 on the working registers the command in flight uses (R25 to R27). -/
def State.Indistinguishable (s t : State) : Prop :=
  s.hideEngine = t.hideEngine ∧
    (s.status.busy = true → ∀ i, s.commandInFlight = some i →
      s.eng.meaningful i = t.eng.meaningful i)

/-- Two outcomes no host can tell apart. -/
def outcomesIndistinguishable : Host.Outcome State Fault Refusal →
    Host.Outcome State Fault Refusal → Prop
  | .next s, .next t => s.Indistinguishable t
  | .fault f, .fault g => f = g
  | .refused r, .refused q => r = q
  | _, _ => False

/-- A run that is safe: it answers a next state, which satisfies the invariant. -/
def SafeOutcome (o : Host.Outcome State Fault Refusal) : Prop := ∃ t, o = .next t ∧ t.Inv

/-- The registers a command reads (R15). -/
def readsRegister (i : Instr) (r : DataReg) : Bool :=
  match i, r with
  | .isprime, .opA => true
  | .gcd, .opA => true
  | .gcd, .opB => true
  | .modinv, .opA => true
  | .modinv, .opB => true
  | .modexp, .opA => true
  | .modexp, .opB => true
  | .modexp, .opC => true
  | _, _ => false

/-- The state `s` after the command `i` was accepted in it and completed normally with the integer `v`
(R133, R137), `e` being the hidden working state. -/
def State.succeeded (s : State) (i : Instr) (v : Int) (e : Engine) : State :=
  { s with
    cmd := encode i
    result := encW s.limbs v
    status := { busy := false, done := true, err := false, wign := s.status.wign, errcode := 0#4 }
    eng := e }

/-- The state `s` after the command `i` was accepted in it and ended with the fault `code` (R133,
R138), `e` being the hidden working state. -/
def State.faultedWith (s : State) (i : Instr) (code : ErrCode) (e : Engine) : State :=
  { s with
    cmd := encode i
    result := zeroLimbs s.limbs
    status := { busy := false, done := true, err := true, wign := s.status.wign, errcode := code }
    eng := e }

/-- The outcome `(e, r)` a pseudo-command collects (R70): a fault leaves `r = 0`. -/
def OpResult.collected : OpResult → ErrCode × Int
  | .done v => (0#4, v)
  | .fault code => (code, 0)

/-- The outcome the state shows after the command in flight was run `n` single engine steps further,
stopping at the end of the operation or at a stop of the model (R136). -/
def engineSteps : Nat → State → Host.Outcome State Fault Refusal
  | 0, s => .next s
  | n + 1, s =>
    match engineMove s with
    | .next t => engineSteps n t
    | .fault f => .fault f
    | .refused r => .refused r

end Sys2Proof.Machine
end

