-- ==== Sys2Proof/Certificates/Slice0/Obligations.lean ====
section
/-! DEFINITION. The statements about the block, from the numbered rules of spec/. -/

open Sys2Proof Sys2Proof.Machine

/-! ## Encoding -/

/-- R60 to R62: the decoder and the encoder agree both ways, on bytes: what decodes to a command is
its four bytes and then the rest. -/
def Obligations.DecodeAndEncodeAgree : Prop :=
  ∀ (bs rest : List Byte) (i : Instr),
    decodeBytes bs = .ok (i, rest) ↔ bs = encodeBytes i ++ rest

/-- R61: a word decodes if and only if `word[31:4] = 0` and `word[3:0]` is one of 1, 2, 3, 4;
equivalently it is one of the words 1, 2, 3, 4; and each of these is the command R61's table names. -/
def Obligations.LegalWordsAreTheOpcodeMap : Prop :=
  (∀ w : Word, (∃ i, decodeWord w = .ok i) ↔
    w.extractLsb' 4 28 = 0#28 ∧ (w.extractLsb' 0 4 = 1#4 ∨ w.extractLsb' 0 4 = 2#4 ∨
      w.extractLsb' 0 4 = 3#4 ∨ w.extractLsb' 0 4 = 4#4)) ∧
  (∀ w : Word, (∃ i, decodeWord w = .ok i) ↔ w.toNat = 1 ∨ w.toNat = 2 ∨ w.toNat = 3 ∨ w.toNat = 4) ∧
  decodeWord 0x00000001#32 = .ok .isprime ∧ decodeWord 0x00000002#32 = .ok .gcd ∧
  decodeWord 0x00000003#32 = .ok .modinv ∧ decodeWord 0x00000004#32 = .ok .modexp

/-- Words written out from the opcode table, and reserved words refused by name (R61, R66). -/
def Obligations.WrittenOutWordsDecode : Prop :=
  decodeBytes [0x01#8, 0x00#8, 0x00#8, 0x00#8] = .ok (.isprime, []) ∧
  decodeBytes [0x02#8, 0x00#8, 0x00#8, 0x00#8] = .ok (.gcd, []) ∧
  decodeBytes [0x03#8, 0x00#8, 0x00#8, 0x00#8] = .ok (.modinv, []) ∧
  decodeBytes [0x04#8, 0x00#8, 0x00#8, 0x00#8] = .ok (.modexp, []) ∧
  decodeBytes [0x00#8, 0x00#8, 0x00#8, 0x00#8] = .error (.reservedOpcode 0#4) ∧
  decodeBytes [0x05#8, 0x00#8, 0x00#8, 0x00#8] = .error (.reservedOpcode 5#4) ∧
  decodeBytes [0x13#8, 0x00#8, 0x00#8, 0x00#8] = .error .upperBitsNonzero ∧
  decodeBytes [0x01#8, 0x00#8, 0x00#8, 0x80#8] = .error .upperBitsNonzero

/-! ## The integers of the data registers, and division -/

/-- R47: a data register denotes `Σ uint(limb[j]) * 2^(32j) - 2^W * R[W-1]`, the sign bit being bit 31
of limb `L-1`. -/
def Obligations.RegisterDenotesSumOfLimbs : Prop :=
  ∀ (l : Nat) (r : List Limb), 1 ≤ l → r.length = l →
    sintW r =
      (∑ j ∈ Finset.range l, ((r.getD j 0#32).toNat : Int) * 2 ^ (32 * j)) -
        2 ^ (32 * l) * (if (r.getD (l - 1) 0#32).getLsbD 31 then 1 else 0)

/-- R5: `sint_W` ranges over the representable integers, and `enc_W(v)` is the one register contents
that denotes a representable `v`. -/
def Obligations.EncodingOfIntegersIsUnique : Prop :=
  (∀ r : List Limb, r ≠ [] → repW r.length (sintW r) = true) ∧
  (∀ (l : Nat) (v : Int) (r : List Limb), 1 ≤ l → repW l v = true → r.length = l →
    (sintW r = v ↔ r = encW l v))

/-- R142: the laws of `fdiv` and `fmod`. -/
def Obligations.FlooredDivisionLaws : Prop :=
  ∀ a b : Int, b ≠ 0 →
    a = b * fdiv a b + fmod a b ∧
    (b > 0 → 0 ≤ fmod a b ∧ fmod a b < b) ∧
    (b < 0 → b < fmod a b ∧ fmod a b ≤ 0) ∧
    |fmod a b| < |b| ∧
    (fmod a b = 0 ↔ b ∣ a) ∧
    fmod a 1 = 0 ∧ fmod a (-1) = 0 ∧
    (∀ c : Int, fmod (a + c * b) b = fmod a b) ∧
    (∀ s t : Int, fmod (s * t) b = fmod (fmod s b * fmod t b) b) ∧
    (a ≥ 0 → b > 0 →
      fdiv a b = ((a.toNat / b.toNat : Nat) : Int) ∧ fmod a b = ((a.toNat % b.toNat : Nat) : Int) ∧
      0 ≤ fdiv a b ∧ fdiv a b ≤ a)

/-- R6: `fdiv(a, b)` is the largest integer `q` with `q ≤ a / b` (the exact quotient), and
`fmod(a, b) = a - b * fdiv(a, b)`, zero or of the sign of `b`. -/
def Obligations.QuotientIsTheFloor : Prop :=
  ∀ a b : Int, b ≠ 0 →
    IsGreatest {q : Int | (q : ℚ) ≤ (a : ℚ) / (b : ℚ)} (fdiv a b) ∧
    fmod a b = a - b * fdiv a b ∧
    (b > 0 → 0 ≤ fmod a b ∧ fmod a b < b) ∧ (b < 0 → b < fmod a b ∧ fmod a b ≤ 0)

/-! ## The register window -/

/-- R41: the register map, and every unmapped offset. -/
def Obligations.RegisterMapOfTheWindow : Prop :=
  ∀ l : Nat, wellFormedLimbs l = true →
    locOf l 0x000#12 = some .cap ∧ locOf l 0x004#12 = some .ctrl ∧
    locOf l 0x008#12 = some .cmd ∧ locOf l 0x00C#12 = some .status ∧
    (∀ j, j < l →
      locOf l (BitVec.ofNat 12 (0x200 + 4 * j)) = some (.limb .opA j) ∧
      locOf l (BitVec.ofNat 12 (0x400 + 4 * j)) = some (.limb .opB j) ∧
      locOf l (BitVec.ofNat 12 (0x600 + 4 * j)) = some (.limb .opC j) ∧
      locOf l (BitVec.ofNat 12 (0x800 + 4 * j)) = some (.limb .result j)) ∧
    (∀ off : Offset, off.toNat % 4 = 0 →
      (locOf l off = none ↔
        (0x010 ≤ off.toNat ∧ off.toNat ≤ 0x1FF) ∨
        (0x200 + 4 * l ≤ off.toNat ∧ off.toNat ≤ 0x3FF) ∨
        (0x400 + 4 * l ≤ off.toNat ∧ off.toNat ≤ 0x5FF) ∨
        (0x600 + 4 * l ≤ off.toNat ∧ off.toNat ≤ 0x7FF) ∨
        0x800 + 4 * l ≤ off.toNat))

/-- R44: an access that is not 32 bits wide, or not at a multiple of 4, answers ERROR (with zero data,
R43) and changes no state. -/
def Obligations.UnperformedAccessesAnswerError : Prop :=
  ∀ (s : State) (width : Width) (off : Offset) (d : Word),
    (width ≠ .word ∨ off.toNat % 4 ≠ 0) →
    transact (.read width off) s = { s with response := some (.read .error 0#32) } ∧
    transact (.write width off d) s = { s with response := some (.write .error) }

/-- R45: an aligned 32-bit access at an unmapped offset answers ERROR, with zero data on a read, and
changes no state; in particular at limb `j ≥ L` of a data register. -/
def Obligations.UnmappedAccessesAnswerError : Prop :=
  ∀ (s : State) (off : Offset) (d : Word), off.toNat % 4 = 0 → locOf s.limbs off = none →
    transact (.read .word off) s = { s with response := some (.read .error 0#32) } ∧
    transact (.write .word off d) s = { s with response := some (.write .error) }

/-- R46: a write to CAP or to a limb of RESULT answers ERROR and changes no state; a read of a mapped
offset answers OKAY. -/
def Obligations.ReadOnlyRegistersRefuseWrites : Prop :=
  ∀ (s : State) (d : Word),
    transact (.write .word 0x000#12 d) s = { s with response := some (.write .error) } ∧
    (∀ j, j < s.limbs → s.limbs ≤ 128 →
      transact (.write .word (BitVec.ofNat 12 (0x800 + 4 * j)) d) s =
        { s with response := some (.write .error) }) ∧
    (∀ (off : Offset) (loc : Loc), off.toNat % 4 = 0 → locOf s.limbs off = some loc →
      transact (.read .word off) s = { s with response := some (.read .okay (s.readLoc loc)) })

/-- R48: while idle a write of limb `j` of an operand register sets those 32 bits and leaves every
other bit of the block; a read of a limb returns it at any time. -/
def Obligations.LimbAccesses : Prop :=
  ∀ (s : State) (j : Nat) (d : Word), s.limbs ≤ 128 → j < s.limbs →
    (s.status.busy = false →
      transact (.write .word (BitVec.ofNat 12 (0x200 + 4 * j)) d) s =
        { s with opA := s.opA.set j d, response := some (.write .okay) } ∧
      transact (.write .word (BitVec.ofNat 12 (0x400 + 4 * j)) d) s =
        { s with opB := s.opB.set j d, response := some (.write .okay) } ∧
      transact (.write .word (BitVec.ofNat 12 (0x600 + 4 * j)) d) s =
        { s with opC := s.opC.set j d, response := some (.write .okay) }) ∧
    transact (.read .word (BitVec.ofNat 12 (0x200 + 4 * j))) s =
      { s with response := some (.read .okay (s.opA.getD j 0#32)) } ∧
    transact (.read .word (BitVec.ofNat 12 (0x400 + 4 * j))) s =
      { s with response := some (.read .okay (s.opB.getD j 0#32)) } ∧
    transact (.read .word (BitVec.ofNat 12 (0x600 + 4 * j))) s =
      { s with response := some (.read .okay (s.opC.getD j 0#32)) } ∧
    transact (.read .word (BitVec.ofNat 12 (0x800 + 4 * j))) s =
      { s with response := some (.read .okay (s.result.getD j 0#32)) }

/-- R48, byte by byte (R47): after a write of limb `j` of OP_A while idle, the four bytes of that limb
are the little-endian bytes of the data, and every other byte of the window reads as before. -/
def Obligations.OperandWriteChangesItsFourBytes : Prop :=
  ∀ (s : State) (j : Nat) (d : Word) (a : Offset), s.RegsWf → s.status.busy = false → j < s.limbs →
    (transact (.write .word (BitVec.ofNat 12 (0x200 + 4 * j)) d) s).windowByte a =
      if a.toNat / 4 = 0x80 + j then some (d.extractLsb' (8 * (a.toNat % 4)) 8)
      else s.windowByte a

/-- R50: a read changes nothing but the port's answer, and two reads of one offset answer the same;
every mapped location may be read at any time. -/
def Obligations.ReadsHaveNoSideEffects : Prop :=
  ∀ (s : State) (width : Width) (off : Offset),
    (∃ r, transact (.read width off) s = { s with response := some r }) ∧
    transact (.read width off) (transact (.read width off) s) = transact (.read width off) s ∧
    (off.toNat % 4 = 0 → ∀ loc, locOf s.limbs off = some loc →
      transact (.read .word off) s = { s with response := some (.read .okay (s.readLoc loc)) })

/-- R51: while busy, a write to a limb of OP_A, OP_B, OP_C or to CMD answers OKAY, writes nothing to its
target and sets WIGN.  Writes to CTRL and STATUS are never ignored. -/
def Obligations.WritesIgnoredWhileBusy : Prop :=
  ∀ (s : State) (d : Word), s.status.busy = true → s.limbs ≤ 128 →
    (∀ off : Offset,
      (off = 0x008#12 ∨ (∃ j, j < s.limbs ∧ (off = BitVec.ofNat 12 (0x200 + 4 * j) ∨
        off = BitVec.ofNat 12 (0x400 + 4 * j) ∨ off = BitVec.ofNat 12 (0x600 + 4 * j)))) →
      transact (.write .word off d) s =
        { s with
          status := { s.status with wign := true }
          response := some (.write .okay) }) ∧
    (transact (.write .word 0x004#12 d) s).ctrl.ie = d.getLsbD 0 ∧
    (transact (.write .word 0x00C#12 d) s).status.wign = (s.status.wign && !d.getLsbD 3)

/-- R16, R17, R19, R49: the words a host reads at CAP, CTRL and STATUS, bit by bit: each field in its
place and every reserved bit zero. -/
def Obligations.ControlWordsHaveTheirFields : Prop :=
  ∀ s : State, s.limbs ≤ 128 →
    transact (.read .word 0x000#12) s =
      { s with response := some (.read .okay (s.readLoc .cap)) } ∧
    (s.readLoc .cap).toNat = s.limbs ∧
    transact (.read .word 0x004#12) s =
      { s with response := some (.read .okay (s.readLoc .ctrl)) } ∧
    (s.readLoc .ctrl).getLsbD 0 = s.ctrl.ie ∧ (s.readLoc .ctrl).extractLsb' 1 31 = 0#31 ∧
    transact (.read .word 0x008#12) s = { s with response := some (.read .okay s.cmd) } ∧
    transact (.read .word 0x00C#12) s =
      { s with response := some (.read .okay (s.readLoc .status)) } ∧
    (s.readLoc .status).getLsbD 0 = s.status.busy ∧ (s.readLoc .status).getLsbD 1 = s.status.done ∧
    (s.readLoc .status).getLsbD 2 = s.status.err ∧ (s.readLoc .status).getLsbD 3 = s.status.wign ∧
    (s.readLoc .status).extractLsb' 4 4 = 0#4 ∧
    (s.readLoc .status).extractLsb' 8 4 = s.status.errcode ∧
    (s.readLoc .status).extractLsb' 12 20 = 0#20

/-- R139: a write to STATUS clears DONE where bit 1 is written 1 and WIGN where bit 3 is, and nothing
else; clearing DONE lowers `irq`; a write to CTRL sets IE to bit 0, and nothing else; both answer OKAY
at any time. -/
def Obligations.ControlWrites : Prop :=
  ∀ (s : State) (d : Word),
    transact (.write .word 0x00C#12 d) s =
      { s with
        status := { s.status with
          done := if d.getLsbD 1 then false else s.status.done
          wign := if d.getLsbD 3 then false else s.status.wign }
        response := some (.write .okay) } ∧
    (d.getLsbD 1 = true → (transact (.write .word 0x00C#12 d) s).irq = false) ∧
    transact (.write .word 0x004#12 d) s =
      { s with ctrl := { ie := d.getLsbD 0 }, response := some (.write .okay) }

/-! ## Issuing a command -/

/-- R130: a write to CMD, in its order: ignored while busy; otherwise accepted if the word is legal,
refused if it is not; OKAY always. -/
def Obligations.CommandWriteIsHandledInOrder : Prop :=
  ∀ (s : State) (w : Word),
    transact (.write .word 0x008#12 w) s =
      { (if s.status.busy then { s with status := { s.status with wign := true } }
         else if wellFormedWord w then startOperation w s
         else refuseCommand w s) with response := some (.write .okay) }

/-- R133: acceptance of a legal command word, and the engine's steps are then enabled (R136). -/
def Obligations.AcceptanceStartsTheOperation : Prop :=
  ∀ (s : State) (i : Instr), s.status.busy = false →
    ∃ t, transact (.write .word 0x008#12 (encode i)) s = t ∧
      t = { s with
        cmd := encode i
        status := { busy := true, done := false, err := false, wign := s.status.wign, errcode := 0#4 }
        eng := { s.eng with
          stage := .init, wa := sintW s.opA, wb := sintW s.opB, wc := sintW s.opC }
        response := some (.write .okay) } ∧
      t.irq = false ∧ engineMove t = engineStepOf i t

/-- R134: refusal of an illegal command word while idle; nothing starts, and the word can be read
back from CMD. -/
def Obligations.RefusalOfIllegalWords : Prop :=
  ∀ (s : State) (w : Word), s.status.busy = false → wellFormedWord w = false →
    ∃ t, transact (.write .word 0x008#12 w) s = t ∧
      t = { s with
        cmd := w
        status := { busy := false, done := true, err := true, wign := s.status.wign, errcode := 1#4 }
        result := List.replicate s.limbs 0#32
        response := some (.write .okay) } ∧
      t.irq = s.ctrl.ie ∧ engineMove t = .next t ∧
      (transact (.read .word 0x008#12) t).response = some (.read .okay w)

/-- R137: normal completion, with the RANGE guard; afterwards the engine has no step.  What the hidden
working state is then, R25 and R26 leave open, and so does this statement. -/
def Obligations.NormalCompletion : Prop :=
  ∀ (s : State) (v : Int),
    (repW s.limbs v = true →
      ∃ e, complete v s = { s with
        result := encW s.limbs v
        status := { busy := false, done := true, err := false, wign := s.status.wign, errcode := 0#4 }
        eng := e }) ∧
    (repW s.limbs v = false → complete v s = raiseFault 3#4 s) ∧
    (complete v s).irq = s.ctrl.ie ∧ engineMove (complete v s) = .next (complete v s)

/-- R138: completion with a fault: what a fault changes, and nothing else; afterwards the engine has no
step (R136).  The hidden working state is left open (R25, R26). -/
def Obligations.FaultCompletion : Prop :=
  ∀ (s : State) (code : ErrCode),
    (∃ e, raiseFault code s = { s with
      result := List.replicate s.limbs 0#32
      status := { busy := false, done := true, err := true, wign := s.status.wign, errcode := code }
      eng := e }) ∧
    (raiseFault code s).irq = s.ctrl.ie ∧ engineMove (raiseFault code s) = .next (raiseFault code s)

/-- R29: `irq` is CTRL.IE and STATUS.DONE, at every instant, and 0 after reset; so (R177) clearing DONE
or IE lowers it, and setting IE raises it at once where DONE is pending. -/
def Obligations.InterruptOutput : Prop :=
  ∀ (s : State) (d : Word),
    s.irq = (s.ctrl.ie && s.status.done) ∧ (resetBlock s).irq = false ∧
    (d.getLsbD 1 = true → (transact (.write .word 0x00C#12 d) s).irq = false) ∧
    (transact (.write .word 0x004#12 d) s).irq = (d.getLsbD 0 && s.status.done)

/-! ## Reset -/

/-- R31, R190, R191: reset at any point gives the reset state, CAP unchanged, and an operation that was
in flight never completes: the engine then has no step.  The hidden working state `e` after it (log 5)
and what the port's answer `ans` holds (log 7) are the model's choices and no part of this statement. -/
def Obligations.ResetStep : Prop :=
  ∀ (s : State) (rest : List Event), s.schedule = .reset :: rest →
    ∃ e ans t, step s = .next t ∧
      t = { limbs := s.limbs
            opA := List.replicate s.limbs 0#32, opB := List.replicate s.limbs 0#32
            opC := List.replicate s.limbs 0#32, result := List.replicate s.limbs 0#32
            ctrl := { ie := false }, cmd := 0#32
            status := { busy := false, done := false, err := false, wign := false, errcode := 0#4 }
            eng := e, schedule := rest, response := ans } ∧
      t.irq = false ∧ engineMove t = .next t ∧ engineRunMove t = .next t

/-- R194: the first command after reset, on the zero operands: ISPRIME 0, GCD 0, MODINV 1, MODEXP
faults with DIV_ZERO; at every instance width. -/
def Obligations.FirstCommandsAfterReset : Prop :=
  ∀ l : Nat, wellFormedLimbs l = true →
    (∃ e, exec .isprime (startOperation (encode .isprime) (State.resetOf l)) =
      .next ((State.resetOf l).succeeded .isprime 0 e)) ∧
    (∃ e, exec .gcd (startOperation (encode .gcd) (State.resetOf l)) =
      .next ((State.resetOf l).succeeded .gcd 0 e)) ∧
    (∃ e, exec .modinv (startOperation (encode .modinv) (State.resetOf l)) =
      .next ((State.resetOf l).succeeded .modinv 1 e)) ∧
    (∃ e, exec .modexp (startOperation (encode .modexp) (State.resetOf l)) =
      .next ((State.resetOf l).faultedWith .modexp 2#4 e))

/-! ## The step -/

/-- R136, R53: a step runs the decoded command.  When BUSY = 1 and the bytes of CMD decode to `i`, the
engine's move to the end of the operation is `exec i` and its move of one engine step is the engine
step of `i`; while BUSY = 0 the engine does nothing; and a command placed by `withFetchWord` is what
the next step runs. -/
def Obligations.StepRunsTheDecodedCommand : Prop :=
  (∀ (s : State) (i : Instr), s.status.busy = true →
    decodeBytes s.commandBytes = .ok (i, []) → i.wellFormed = true →
    (s.schedule = [] → step s = exec i s) ∧
    (∀ rest, s.schedule = .engineRun :: rest → step s = exec i { s with schedule := rest }) ∧
    (∀ rest, s.schedule = .engine :: rest → step s = engineStepOf i { s with schedule := rest })) ∧
  (∀ (s : State), s.status.busy = false →
    (s.schedule = [] → step s = .next s) ∧
    (∀ rest, s.schedule = .engineRun :: rest → step s = .next { s with schedule := rest }) ∧
    (∀ rest, s.schedule = .engine :: rest → step s = .next { s with schedule := rest })) ∧
  (∀ (s : State) (t : Transaction) (rest : List Event), s.schedule = .bus t :: rest →
    step s = .next (transact t { s with schedule := rest })) ∧
  (∀ (s : State) (i : Instr),
    step (s.withFetchWord 32 (encode i).toNat) = exec i (startOperation (encode i) s))

/-! ## The engine steps of each command -/

/-- R81: the engine steps of ISPRIME, and that from acceptance they end as `Exec_ISPRIME(p)` does. -/
def Obligations.IsprimeEngineSteps : Prop :=
  (∀ s : State, s.status.busy = true → s.cmd = encode .isprime →
    (s.eng.stage = .init →
      engineMove s = .next
        (if s.eng.wa ≤ 1 then complete 0 { s with eng := { s.eng with wi := 2 } }
         else { s with eng := { s.eng with wi := 2, stage := .loop } })) ∧
    (s.eng.stage = .loop → s.eng.wi ≠ 0 →
      engineMove s = .next
        (if s.eng.wi * s.eng.wi > s.eng.wa then complete 1 s
         else if fmod s.eng.wa s.eng.wi = 0 then complete 0 s
         else { s with eng := { s.eng with wi := s.eng.wi + 1 } }))) ∧
  (∀ s : State, ∃ n e r, isprimeFunction (sintW s.opA) = some r ∧
    engineSteps n (startOperation (encode .isprime) s) =
      .next (r.finish { startOperation (encode .isprime) s with eng := e }))

/-- R91: the engine steps of GCD, and that from acceptance they end as `Exec_GCD(x, y)` does. -/
def Obligations.GcdEngineSteps : Prop :=
  (∀ s : State, s.status.busy = true → s.cmd = encode .gcd →
    (s.eng.stage = .init → engineMove s = .next { s with eng := { s.eng with stage := .loop } }) ∧
    (s.eng.stage = .loop →
      engineMove s = .next
        (if s.eng.wb = 0 then complete s.eng.wa s
         else { s with eng := { s.eng with wa := s.eng.wb, wb := fmod s.eng.wa s.eng.wb } }))) ∧
  (∀ s : State, ∃ n e r, gcdFunction (sintW s.opA) (sintW s.opB) = some r ∧
    engineSteps n (startOperation (encode .gcd) s) =
      .next (r.finish { startOperation (encode .gcd) s with eng := e }))

/-- R101: the engine steps of MODINV, and that from acceptance they end as `Exec_MODINV(a, n)` does. -/
def Obligations.ModinvEngineSteps : Prop :=
  (∀ s : State, s.status.busy = true → s.cmd = encode .modinv →
    (s.eng.stage = .init →
      engineMove s = .next
        (if s.eng.wb = 1 then
          complete 0 { s with eng := { s.eng with wn0 := s.eng.wb, wx0 := 0, wx1 := 1 } }
         else { s with eng := { s.eng with wn0 := s.eng.wb, wx0 := 0, wx1 := 1, stage := .loop } })) ∧
    (s.eng.stage = .loop →
      engineMove s = .next
        (if s.eng.wa > 1 then
          if s.eng.wb = 0 then raiseFault 2#4 s
          else { s with
            eng := { s.eng with
              wb := fmod s.eng.wa s.eng.wb
              wa := s.eng.wb
              wx0 := s.eng.wx1 - fdiv s.eng.wa s.eng.wb * s.eng.wx0
              wx1 := s.eng.wx0 } }
         else if s.eng.wx1 < 0 then complete (s.eng.wx1 + s.eng.wn0) s
         else complete s.eng.wx1 s))) ∧
  (∀ s : State, ∃ n e r, modinvFunction (sintW s.opA) (sintW s.opB) = some r ∧
    engineSteps n (startOperation (encode .modinv) s) =
      .next (r.finish { startOperation (encode .modinv) s with eng := e }))

/-- R116: the engine steps of MODEXP, the multiply reading `wa` from before the step's squaring, and
that from acceptance they end as `Exec_MODEXP(b, e, m)` does. -/
def Obligations.ModexpEngineSteps : Prop :=
  (∀ s : State, s.status.busy = true → s.cmd = encode .modexp →
    (s.eng.stage = .init →
      engineMove s = .next
        (if s.eng.wc = 0 then raiseFault 2#4 { s with eng := { s.eng with wv := 1 } }
         else { s with
          eng := { s.eng with wv := 1, wa := fmod s.eng.wa s.eng.wc, stage := .loop } })) ∧
    (s.eng.stage = .loop → s.eng.wc ≠ 0 →
      engineMove s = .next
        (if s.eng.wb > 0 then
          { s with
            eng := { s.eng with
              wv := if fmod s.eng.wb 2 = 1 then fmod (s.eng.wv * s.eng.wa) s.eng.wc else s.eng.wv
              wa := fmod (s.eng.wa * s.eng.wa) s.eng.wc
              wb := fdiv s.eng.wb 2 } }
         else complete s.eng.wv s))) ∧
  (∀ s : State, ∃ n e r,
    modexpFunction (sintW s.opA) (sintW s.opB) (sintW s.opC) = some r ∧
    engineSteps n (startOperation (encode .modexp) s) =
      .next (r.finish { startOperation (encode .modexp) s with eng := e }))

/-- R136: how many loop iterations one engine step performs makes no difference: the whole rest of an
operation in one step is what single engine steps come to. -/
def Obligations.WholeOperationIsItsEngineSteps : Prop :=
  ∀ (s : State) (i : Instr), s.status.busy = true → s.commandInFlight = some i →
    ∃ n, engineSteps n s = exec i s

/-! ## The results of the commands -/

/-- R80, R83 (b): ISPRIME, accepted in any state, completes with 1 if `p` is a prime number and 0 if
not, and changes nothing else but CMD, STATUS and the hidden working state (R33). -/
def Obligations.IsprimeDecidesPrimality : Prop :=
  ∀ s : State, s.RegsWf →
    ∃ e, exec .isprime (startOperation (encode .isprime) s) =
      .next (s.succeeded .isprime
        (if 1 < sintW s.opA ∧ ∀ d : Int, 1 < d → d < sintW s.opA → ¬ d ∣ sintW s.opA then 1 else 0) e)

/-- R92: GCD completes with `x` where `y = 0`, and with the ordinary greatest common divisor, of the
sign of `y`, otherwise. -/
def Obligations.GcdClosedForm : Prop :=
  ∀ s : State, s.RegsWf →
    ∃ e, exec .gcd (startOperation (encode .gcd) s) =
      .next (s.succeeded .gcd
        (if sintW s.opB = 0 then sintW s.opA
         else if sintW s.opB > 0 then (Int.gcd (sintW s.opA) (sintW s.opB) : Int)
         else -(Int.gcd (sintW s.opA) (sintW s.opB) : Int)) e)

/-- R102: the outcome of MODINV for every operand pair, its six rows in order.  Rows 2 (for `a ≤ 0` or
`n ≤ 0`) and 4 are what the machine does, not what a program may rely on (U1). -/
def Obligations.ModinvOutcomeTable : Prop :=
  ∀ (s : State) (a n : Int), s.RegsWf → a = sintW s.opA → n = sintW s.opB →
    (n = 1 → ∃ e, exec .modinv (startOperation (encode .modinv) s) =
      .next (s.succeeded .modinv 0 e)) ∧
    (a ≤ 1 → n ≠ 1 → ∃ e, exec .modinv (startOperation (encode .modinv) s) =
      .next (s.succeeded .modinv 1 e)) ∧
    (2 ≤ a → n = 0 → ∃ e, exec .modinv (startOperation (encode .modinv) s) =
      .next (s.faultedWith .modinv 2#4 e)) ∧
    (2 ≤ a → n < 0 → ∃ e, exec .modinv (startOperation (encode .modinv) s) =
      .next (s.succeeded .modinv 0 e)) ∧
    (2 ≤ a → 2 ≤ n → Int.gcd a n = 1 → ∃ r e, 1 ≤ r ∧ r < n ∧ a * r ≡ 1 [ZMOD n] ∧
      exec .modinv (startOperation (encode .modinv) s) = .next (s.succeeded .modinv r e)) ∧
    (2 ≤ a → 2 ≤ n → Int.gcd a n > 1 → ∃ e, exec .modinv (startOperation (encode .modinv) s) =
      .next (s.faultedWith .modinv 2#4 e))

/-- R103: inside its contract MODINV completes with the unique inverse in `[0, n)`. -/
def Obligations.ModinvInsideItsContract : Prop :=
  ∀ (s : State) (a n : Int), s.RegsWf → a = sintW s.opA → n = sintW s.opB →
    1 ≤ a → 2 ≤ n → Int.gcd a n = 1 →
    ∃ r e, exec .modinv (startOperation (encode .modinv) s) = .next (s.succeeded .modinv r e) ∧
      0 ≤ r ∧ r < n ∧ fmod (a * r) n = 1 ∧ r ≠ 0 ∧
      ∀ r' : Int, 0 ≤ r' → r' < n → fmod (a * r') n = 1 → r' = r

/-- R117: the outcome of MODEXP for every operand triple, its four rows in order.  The values for a
negative exponent or modulus, and for `e = 0` with `m = 1`, are what the machine does, not what a
program may rely on (U2, U3). -/
def Obligations.ModexpOutcomeTable : Prop :=
  ∀ (s : State) (b k m : Int), s.RegsWf → b = sintW s.opA → k = sintW s.opB → m = sintW s.opC →
    (m = 0 → ∃ e, exec .modexp (startOperation (encode .modexp) s) =
      .next (s.faultedWith .modexp 2#4 e)) ∧
    (k ≤ 0 → m ≠ 0 → ∃ e, exec .modexp (startOperation (encode .modexp) s) =
      .next (s.succeeded .modexp 1 e)) ∧
    (1 ≤ k → m > 0 → 0 ≤ fmod (b ^ k.toNat) m ∧ fmod (b ^ k.toNat) m < m ∧
      ∃ e, exec .modexp (startOperation (encode .modexp) s) =
        .next (s.succeeded .modexp (fmod (b ^ k.toNat) m) e)) ∧
    (1 ≤ k → m < 0 → m < fmod (b ^ k.toNat) m ∧ fmod (b ^ k.toNat) m ≤ 0 ∧
      ∃ e, exec .modexp (startOperation (encode .modexp) s) =
        .next (s.succeeded .modexp (fmod (b ^ k.toNat) m) e))

/-- R120: while MODEXP is in its loop, `wa` is reduced modulo `m` and `wv` is 1 or reduced. -/
def Obligations.ModexpWorkingRegistersStayReduced : Prop :=
  ∀ (s t : State) (n : Nat), engineSteps n (startOperation (encode .modexp) s) = .next t →
    t.status.busy = true → t.eng.stage = .loop →
    (sintW s.opC > 0 → 0 ≤ t.eng.wa ∧ t.eng.wa < sintW s.opC ∧
      (t.eng.wv = 1 ∨ (0 ≤ t.eng.wv ∧ t.eng.wv < sintW s.opC))) ∧
    (sintW s.opC < 0 → sintW s.opC < t.eng.wa ∧ t.eng.wa ≤ 0 ∧
      (t.eng.wv = 1 ∨ (sintW s.opC < t.eng.wv ∧ t.eng.wv ≤ 0)))

/-- R106: while MODINV is in its loop, the running pair is representable and the cofactors are at most
`max(|n0|, 1)` in magnitude. -/
def Obligations.ModinvWorkingRegistersStayBounded : Prop :=
  ∀ (s t : State) (n : Nat), s.RegsWf →
    engineSteps n (startOperation (encode .modinv) s) = .next t →
    t.status.busy = true → t.eng.stage = .loop →
    repW s.limbs t.eng.wa = true ∧ repW s.limbs t.eng.wb = true ∧
    |t.eng.wx0| ≤ max |sintW s.opB| 1 ∧ |t.eng.wx1| ≤ max |sintW s.opB| 1

/-- R145, R173: every result is representable, so no command ends with the fault RANGE. -/
def Obligations.RangeFaultIsUnreachable : Prop :=
  ∀ (s t : State) (i : Instr), s.RegsWf → exec i (startOperation (encode i) s) = .next t →
    t.status.errcode ≠ 3#4

/-- R172: the causes of DIV_ZERO, complete, and its effect (R138). -/
def Obligations.DivZeroCausesAreComplete : Prop :=
  ∀ (s t : State) (i : Instr), s.RegsWf → exec i (startOperation (encode i) s) = .next t →
    (t.status.errcode = 2#4 ↔
      (i = .modinv ∧ sintW s.opA ≥ 2 ∧ sintW s.opB = 0) ∨
      (i = .modinv ∧ sintW s.opA ≥ 2 ∧ sintW s.opB ≥ 2 ∧
        Int.gcd (sintW s.opA) (sintW s.opB) > 1) ∨
      (i = .modexp ∧ sintW s.opC = 0)) ∧
    (t.status.errcode = 2#4 → ∃ e, t = s.faultedWith i 2#4 e)

/-! ## Frames -/

/-- The frame of the four commands (R33, R137, R138): a command run to its end leaves OP_A, OP_B, OP_C,
CTRL, CMD, WIGN, CAP, and every byte of the window outside STATUS and RESULT; and it ends with BUSY
clear, DONE set, and ERR, ERRCODE and RESULT as R22 (b), (c), (d) say. -/
def Obligations.CommandFrame : Prop :=
  ∀ (i : Instr) (s t : State), s.status.busy = true → exec i s = .next t →
    t.limbs = s.limbs ∧ t.opA = s.opA ∧ t.opB = s.opB ∧ t.opC = s.opC ∧ t.ctrl = s.ctrl ∧
    t.cmd = s.cmd ∧ t.status.wign = s.status.wign ∧ t.schedule = s.schedule ∧
    t.response = s.response ∧
    t.status.busy = false ∧ t.status.done = true ∧
    (t.status.err = true ↔ t.status.errcode ≠ 0#4) ∧ t.status.errcode ≠ 1#4 ∧
    t.status.errcode.toNat ≤ 3 ∧
    (t.status.err = true → t.result = List.replicate s.limbs 0#32) ∧
    (∀ a : Offset, a.toNat / 4 ≠ 3 → ¬ (0x800 ≤ a.toNat ∧ a.toNat < 0x800 + 4 * s.limbs) →
      t.windowByte a = s.windowByte a)

/-- The frame of one engine step (R33, R136). -/
def Obligations.EngineStepFrame : Prop :=
  ∀ s t : State, engineMove s = .next t →
    t.limbs = s.limbs ∧ t.opA = s.opA ∧ t.opB = s.opB ∧ t.opC = s.opC ∧ t.ctrl = s.ctrl ∧
    t.cmd = s.cmd ∧ t.status.wign = s.status.wign ∧ t.schedule = s.schedule ∧
    t.response = s.response ∧ (t.status.busy = true → t.status = s.status ∧ t.result = s.result)

/-! ## What changes what, over every step -/

/-- R20: BUSY is set by the acceptance of a legal command and by nothing else, and cleared by a
completion (which sets DONE) and by reset and by nothing else. -/
def Obligations.BusyIsSetByAcceptanceAlone : Prop :=
  ∀ s t : State, step s = .next t →
    (s.status.busy = false → t.status.busy = true →
      ∃ i rest, s.schedule = .bus (.write .word 0x008#12 (encode i)) :: rest) ∧
    (s.status.busy = true → t.status.busy = false →
      (∃ rest, s.schedule = .reset :: rest) ∨
      ((s.schedule = [] ∨ (∃ rest, s.schedule = .engine :: rest) ∨
        ∃ rest, s.schedule = .engineRun :: rest) ∧ t.status.done = true))

/-- R14: RESULT is written by a completion, by the refusal of an illegal command and by reset, and by
nothing else; a completion leaves BUSY clear and DONE set. -/
def Obligations.ResultIsWrittenByCompletionsAndRefusals : Prop :=
  ∀ s t : State, step s = .next t → t.result ≠ s.result →
    (s.status.busy = true ∧ t.status.busy = false ∧ t.status.done = true ∧
      (s.schedule = [] ∨ (∃ rest, s.schedule = .engine :: rest) ∨
        ∃ rest, s.schedule = .engineRun :: rest)) ∨
    (s.status.busy = false ∧ t.result = List.replicate s.limbs 0#32 ∧
      ∃ w rest, s.schedule = .bus (.write .word 0x008#12 w) :: rest ∧ wellFormedWord w = false) ∨
    (∃ rest, s.schedule = .reset :: rest)

/-- R11 to R13, R22 (f): while BUSY = 1 no step but reset changes an operand register or CMD; and while
idle only a host write of its own limbs (or reset) changes one. -/
def Obligations.OperandsAreHeldWhileBusy : Prop :=
  ∀ s t : State, step s = .next t → (∀ rest, s.schedule ≠ .reset :: rest) →
    (s.status.busy = true → t.opA = s.opA ∧ t.opB = s.opB ∧ t.opC = s.opC ∧ t.cmd = s.cmd) ∧
    (t.opA ≠ s.opA → ∃ off d rest, s.schedule = .bus (.write .word off d) :: rest ∧
      0x200 ≤ off.toNat ∧ off.toNat < 0x200 + 4 * s.limbs) ∧
    (t.opB ≠ s.opB → ∃ off d rest, s.schedule = .bus (.write .word off d) :: rest ∧
      0x400 ≤ off.toNat ∧ off.toNat < 0x400 + 4 * s.limbs) ∧
    (t.opC ≠ s.opC → ∃ off d rest, s.schedule = .bus (.write .word off d) :: rest ∧
      0x600 ≤ off.toNat ∧ off.toNat < 0x600 + 4 * s.limbs)

/-- R16, R17, R19: no step changes CAP; CTRL changes by a host write to it and by reset alone; WIGN is
cleared by a host write of 1 to its bit and by reset alone, and set by an ignored write alone: a write
to CMD or to a limb of OP_A, OP_B or OP_C while busy (R51). -/
def Obligations.ControlRegistersChangeByTheHostAlone : Prop :=
  ∀ s t : State, step s = .next t →
    t.limbs = s.limbs ∧
    (t.ctrl ≠ s.ctrl → (∃ d rest, s.schedule = .bus (.write .word 0x004#12 d) :: rest) ∨
      ∃ rest, s.schedule = .reset :: rest) ∧
    (s.status.wign = true → t.status.wign = false →
      (∃ d rest, s.schedule = .bus (.write .word 0x00C#12 d) :: rest ∧ d.getLsbD 3 = true) ∨
      ∃ rest, s.schedule = .reset :: rest) ∧
    (s.status.wign = false → t.status.wign = true → s.status.busy = true ∧
      ∃ off d rest, s.schedule = .bus (.write .word off d) :: rest ∧
        (off = 0x008#12 ∨ ∃ j, j < s.limbs ∧ (off = BitVec.ofNat 12 (0x200 + 4 * j) ∨
          off = BitVec.ofNat 12 (0x400 + 4 * j) ∨ off = BitVec.ofNat 12 (0x600 + 4 * j))))

/-! ## Invariants -/

/-- R31, R22: the state after reset satisfies the invariant, at every instance width. -/
def Obligations.ResetSatisfiesTheInvariant : Prop :=
  State.reset.Inv ∧ ∀ l : Nat, wellFormedLimbs l = true → (State.resetOf l).Inv

/-- R22 (a) to (f), with the register widths and the working registers of the operation in flight: every
step of every agent keeps the invariant. -/
def Obligations.EveryStepKeepsTheInvariant : Prop :=
  ∀ s t : State, s.Inv → step s = .next t → t.Inv

/-- R43, R136, R209: from a state of the invariant every step of every agent answers a next state. -/
def Obligations.EveryStepAnswersANextState : Prop :=
  ∀ s : State, s.Inv → ∃ t, step s = .next t

/-- R22, over every interleaving of the three agents (R53): from reset, whatever the agents do and for
however many steps, the machine goes on and its state satisfies the invariant. -/
def Obligations.EveryInterleavingFromResetIsSafe : Prop :=
  ∀ (l : Nat) (moves : List Event) (n : Nat), wellFormedLimbs l = true →
    SafeOutcome (Sys2Proof.core.run n { State.resetOf l with schedule := moves })

/-- R209, with R83 (a), R93 (a), R107 and R120: an accepted operation completes, in one step to its end
and equally by some number of single engine steps; in either case DONE is set. -/
def Obligations.EveryAcceptedOperationCompletes : Prop :=
  ∀ s : State, s.Inv → s.status.busy = true →
    ∃ i t n, s.commandInFlight = some i ∧ exec i s = .next t ∧ engineSteps n s = .next t ∧
      t.status.busy = false ∧ t.status.done = true

/-! ## What does not matter -/

/-- R32, R15: the outcome of an operation is a function of the command and of the operand registers it
reads at acceptance, and of nothing else: not of RESULT, CTRL, STATUS, the working registers or the
registers it ignores. -/
def Obligations.OutcomeDependsOnTheOperandsAlone : Prop :=
  ∀ (i : Instr) (s s' t t' : State), s.limbs = s'.limbs →
    (∀ r, readsRegister i r = true → s.dataReg r = s'.dataReg r) →
    exec i (startOperation (encode i) s) = .next t →
    exec i (startOperation (encode i) s') = .next t' →
    t.result = t'.result ∧ t.status.err = t'.status.err ∧ t.status.errcode = t'.status.errcode

/-- R32, R53: no host transaction made while an operation is in flight changes its outcome. -/
def Obligations.TransactionsDoNotDisturbTheOperation : Prop :=
  ∀ (i : Instr) (s t : State) (tr : Transaction), s.status.busy = true → exec i s = .next t →
    ∃ t', exec i (transact tr s) = .next t' ∧ t'.result = t.result ∧
      t'.status.err = t.status.err ∧ t'.status.errcode = t.status.errcode ∧
      t'.status.done = t.status.done ∧ t'.opA = t.opA ∧ t'.opB = t.opB ∧ t'.opC = t.opC ∧
      t'.cmd = t.cmd

/-- R25, R26, R193: nothing depends on the hidden working state while the block is idle, nor on the
working registers the command in flight does not use: a step from two states no host can tell apart
gives two outcomes no host can tell apart. -/
def Obligations.HiddenStateIsUnobservable : Prop :=
  ∀ s t : State, s.Indistinguishable t → outcomesIndistinguishable (step s) (step t)

/-! ## Host software over the block -/

/-- R70: a pseudo-command issued on an idle block returns the outcome of its command's `Exec_`
function, and leaves the block idle.  The procedures' form in the model is its choice (log 14): WAIT is
the engine's run to the end of the operation and one read of STATUS. -/
def Obligations.PseudoCommandsReturnTheOutcome : Prop :=
  ∀ s : State, s.RegsWf → s.status.busy = false →
    (∀ p : Int, repW s.limbs p = true → ∃ r t, isprimeFunction p = some r ∧
      hostIsprime p s = .ok (r.collected, t) ∧ t.RegsWf ∧ t.status.busy = false ∧ t.limbs = s.limbs) ∧
    (∀ x y : Int, repW s.limbs x = true → repW s.limbs y = true → ∃ r t, gcdFunction x y = some r ∧
      hostGcd x y s = .ok (r.collected, t) ∧ t.RegsWf ∧ t.status.busy = false ∧ t.limbs = s.limbs) ∧
    (∀ a n : Int, repW s.limbs a = true → repW s.limbs n = true → ∃ r t, modinvFunction a n = some r ∧
      hostModinv a n s = .ok (r.collected, t) ∧ t.RegsWf ∧ t.status.busy = false ∧ t.limbs = s.limbs) ∧
    (∀ b k m : Int, repW s.limbs b = true → repW s.limbs k = true → repW s.limbs m = true →
      ∃ r t, modexpFunction b k m = some r ∧
      hostModexp b k m s = .ok (r.collected, t) ∧ t.RegsWf ∧ t.status.busy = false ∧
      t.limbs = s.limbs)

/-- R151: for `k ≥ 1` FIND_E returns the smallest `e ≥ 2` coprime to `k`, and `e ≤ k + 1`; for `k ≤ 0`
it returns nothing, however many candidates it tries. -/
def Obligations.PublicExponentSearch : Prop :=
  ∀ (s : State) (k : Int) (bound : Nat), s.RegsWf → s.status.busy = false →
    (1 ≤ k → repW s.limbs (k + 1) = true → k ≤ bound →
      ∃ e t, findE bound k s = .ok (e, t) ∧
        IsLeast {e : Int | 2 ≤ e ∧ Int.gcd e k = 1} e ∧ e ≤ k + 1) ∧
    (k ≤ 0 → ∀ e t, findE bound k s ≠ .ok (e, t))

/-- R153, R155, R159: GENKEY returns a keypair for all distinct primes whose product is representable
(the bound on FIND_E's candidates being large enough, log 14), and leaves the block idle; and what a
GENKEY that returns guarantees.  It returns keys also in cases where their product is not representable
(log 21, the model's choice); the guarantees hold of these too. -/
def Obligations.KeypairGuarantees : Prop :=
  ∀ (s : State) (bound : Nat) (p q : Int), s.RegsWf → s.status.busy = false →
    (Nat.Prime p.toNat → Nat.Prime q.toNat → p ≠ q → repW s.limbs (p * q) = true →
      (p - 1) * (q - 1) ≤ bound →
      ∃ pub priv t, genkey bound (.integer p) (.integer q) s = .ok ((pub, priv), t) ∧
        t.RegsWf ∧ t.status.busy = false ∧ t.limbs = s.limbs) ∧
    (∀ (t : State) (pub priv : Key),
      genkey bound (.integer p) (.integer q) s = .ok ((pub, priv), t) →
      Nat.Prime p.toNat ∧ Nat.Prime q.toNat ∧ p ≠ q ∧
      pub.n = p * q ∧ priv.n = p * q ∧ p * q ≥ 6 ∧ (p - 1) * (q - 1) ≥ 2 ∧
      IsLeast {e : Int | 2 ≤ e ∧ Int.gcd e ((p - 1) * (q - 1)) = 1} pub.exponent ∧
      pub.exponent ≤ (p - 1) * (q - 1) + 1 ∧
      pub.exponent * priv.exponent ≡ 1 [ZMOD ((p - 1) * (q - 1))] ∧
      1 ≤ priv.exponent ∧ priv.exponent < (p - 1) * (q - 1))

/-- R154: GENKEY's error kinds and their order: type, then primality of both, then distinctness. -/
def Obligations.KeypairErrorsInOrder : Prop :=
  ∀ (s : State) (bound : Nat), s.RegsWf → s.status.busy = false →
    (∀ v, genkey bound .other v s = .error .invalidInput ∧
      genkey bound v .other s = .error .invalidInput) ∧
    (∀ p q : Int, repW s.limbs p = true → repW s.limbs q = true →
      ¬ (Nat.Prime p.toNat ∧ Nat.Prime q.toNat) →
      genkey bound (.integer p) (.integer q) s = .error .notPrime) ∧
    (∀ p : Int, repW s.limbs p = true → Nat.Prime p.toNat →
      genkey bound (.integer p) (.integer p) s = .error .equalFactors)

/-- R158: the round-trip law: with keys from a GENKEY that returned, every message in `[0, n)` comes
back from ENCRYPT and DECRYPT.  The instance is wide enough for `n` (R159). -/
def Obligations.EncryptThenDecryptReturnsTheMessage : Prop :=
  ∀ (s t : State) (bound : Nat) (p q m : Int) (pub priv : Key), s.RegsWf → s.status.busy = false →
    repW s.limbs (p * q) = true →
    genkey bound (.integer p) (.integer q) s = .ok ((pub, priv), t) → 0 ≤ m → m < p * q →
    ∃ c u v, hostEncrypt m pub t = .ok ((0#4, c), u) ∧ hostDecrypt c priv u = .ok ((0#4, m), v)
end

