-- ==== Sys2Proof/Laws/State.lean ====
section
/-! SUPPORT. One lemma per field per shared update, so that no proof unfolds a record update. -/

namespace Sys2Proof.Machine

variable (w : Word) (v : Int) (c : ErrCode) (s : State) (t : Status) (d : Word)

@[simp] theorem accepted_busy : t.accepted.busy = true := rfl
@[simp] theorem accepted_done : t.accepted.done = false := rfl
@[simp] theorem accepted_err : t.accepted.err = false := rfl
@[simp] theorem accepted_wign : t.accepted.wign = t.wign := rfl
@[simp] theorem accepted_errcode : t.accepted.errcode = ErrCode.none := rfl
@[simp] theorem completed_busy : t.completed.busy = false := rfl
@[simp] theorem completed_done : t.completed.done = true := rfl
@[simp] theorem completed_err : t.completed.err = false := rfl
@[simp] theorem completed_wign : t.completed.wign = t.wign := rfl
@[simp] theorem completed_errcode : t.completed.errcode = ErrCode.none := rfl
@[simp] theorem faulted_busy : (t.faulted c).busy = false := rfl
@[simp] theorem faulted_done : (t.faulted c).done = true := rfl
@[simp] theorem faulted_err : (t.faulted c).err = true := rfl
@[simp] theorem faulted_wign : (t.faulted c).wign = t.wign := rfl
@[simp] theorem faulted_errcode : (t.faulted c).errcode = c := rfl
@[simp] theorem refused_busy : t.refused.busy = t.busy := rfl
@[simp] theorem refused_done : t.refused.done = true := rfl
@[simp] theorem refused_err : t.refused.err = true := rfl
@[simp] theorem refused_wign : t.refused.wign = t.wign := rfl
@[simp] theorem refused_errcode : t.refused.errcode = ErrCode.illegalCmd := rfl
@[simp] theorem ignoredWrite_busy : t.ignoredWrite.busy = t.busy := rfl
@[simp] theorem ignoredWrite_done : t.ignoredWrite.done = t.done := rfl
@[simp] theorem ignoredWrite_err : t.ignoredWrite.err = t.err := rfl
@[simp] theorem ignoredWrite_wign : t.ignoredWrite.wign = true := rfl
@[simp] theorem ignoredWrite_errcode : t.ignoredWrite.errcode = t.errcode := rfl
@[simp] theorem writeOneToClear_busy : (t.writeOneToClear d).busy = t.busy := rfl
@[simp] theorem writeOneToClear_done : (t.writeOneToClear d).done = (t.done && !d.getLsbD 1) := rfl
@[simp] theorem writeOneToClear_err : (t.writeOneToClear d).err = t.err := rfl
@[simp] theorem writeOneToClear_wign : (t.writeOneToClear d).wign = (t.wign && !d.getLsbD 3) := rfl
@[simp] theorem writeOneToClear_errcode : (t.writeOneToClear d).errcode = t.errcode := rfl

@[simp] theorem startOperation_limbs : (startOperation w s).limbs = s.limbs := rfl
@[simp] theorem startOperation_opA : (startOperation w s).opA = s.opA := rfl
@[simp] theorem startOperation_opB : (startOperation w s).opB = s.opB := rfl
@[simp] theorem startOperation_opC : (startOperation w s).opC = s.opC := rfl
@[simp] theorem startOperation_result : (startOperation w s).result = s.result := rfl
@[simp] theorem startOperation_ctrl : (startOperation w s).ctrl = s.ctrl := rfl
@[simp] theorem startOperation_cmd : (startOperation w s).cmd = w := rfl
@[simp] theorem startOperation_status : (startOperation w s).status = s.status.accepted := rfl
@[simp] theorem startOperation_stage : (startOperation w s).eng.stage = .init := rfl
@[simp] theorem startOperation_wa : (startOperation w s).eng.wa = sintW s.opA := rfl
@[simp] theorem startOperation_wb : (startOperation w s).eng.wb = sintW s.opB := rfl
@[simp] theorem startOperation_wc : (startOperation w s).eng.wc = sintW s.opC := rfl
@[simp] theorem startOperation_schedule : (startOperation w s).schedule = s.schedule := rfl
@[simp] theorem startOperation_response : (startOperation w s).response = s.response := rfl

@[simp] theorem refuseCommand_limbs : (refuseCommand w s).limbs = s.limbs := rfl
@[simp] theorem refuseCommand_opA : (refuseCommand w s).opA = s.opA := rfl
@[simp] theorem refuseCommand_opB : (refuseCommand w s).opB = s.opB := rfl
@[simp] theorem refuseCommand_opC : (refuseCommand w s).opC = s.opC := rfl
@[simp] theorem refuseCommand_result : (refuseCommand w s).result = zeroLimbs s.limbs := rfl
@[simp] theorem refuseCommand_ctrl : (refuseCommand w s).ctrl = s.ctrl := rfl
@[simp] theorem refuseCommand_cmd : (refuseCommand w s).cmd = w := rfl
@[simp] theorem refuseCommand_status : (refuseCommand w s).status = s.status.refused := rfl
@[simp] theorem refuseCommand_eng : (refuseCommand w s).eng = s.eng := rfl
@[simp] theorem refuseCommand_schedule : (refuseCommand w s).schedule = s.schedule := rfl
@[simp] theorem refuseCommand_response : (refuseCommand w s).response = s.response := rfl

@[simp] theorem raiseFault_limbs : (raiseFault c s).limbs = s.limbs := rfl
@[simp] theorem raiseFault_opA : (raiseFault c s).opA = s.opA := rfl
@[simp] theorem raiseFault_opB : (raiseFault c s).opB = s.opB := rfl
@[simp] theorem raiseFault_opC : (raiseFault c s).opC = s.opC := rfl
@[simp] theorem raiseFault_result : (raiseFault c s).result = zeroLimbs s.limbs := rfl
@[simp] theorem raiseFault_ctrl : (raiseFault c s).ctrl = s.ctrl := rfl
@[simp] theorem raiseFault_cmd : (raiseFault c s).cmd = s.cmd := rfl
@[simp] theorem raiseFault_status : (raiseFault c s).status = s.status.faulted c := rfl
@[simp] theorem raiseFault_eng : (raiseFault c s).eng = s.eng := rfl
@[simp] theorem raiseFault_schedule : (raiseFault c s).schedule = s.schedule := rfl
@[simp] theorem raiseFault_response : (raiseFault c s).response = s.response := rfl

@[simp] theorem complete_limbs : (complete v s).limbs = s.limbs := by unfold complete; split <;> rfl
@[simp] theorem complete_opA : (complete v s).opA = s.opA := by unfold complete; split <;> rfl
@[simp] theorem complete_opB : (complete v s).opB = s.opB := by unfold complete; split <;> rfl
@[simp] theorem complete_opC : (complete v s).opC = s.opC := by unfold complete; split <;> rfl
@[simp] theorem complete_ctrl : (complete v s).ctrl = s.ctrl := by unfold complete; split <;> rfl
@[simp] theorem complete_cmd : (complete v s).cmd = s.cmd := by unfold complete; split <;> rfl
@[simp] theorem complete_eng : (complete v s).eng = s.eng := by unfold complete; split <;> rfl
@[simp] theorem complete_schedule : (complete v s).schedule = s.schedule := by
  unfold complete; split <;> rfl
@[simp] theorem complete_response : (complete v s).response = s.response := by
  unfold complete; split <;> rfl
@[simp] theorem complete_busy : (complete v s).status.busy = false := by
  unfold complete; split <;> rfl
@[simp] theorem complete_done : (complete v s).status.done = true := by
  unfold complete; split <;> rfl
@[simp] theorem complete_wign : (complete v s).status.wign = s.status.wign := by
  unfold complete; split <;> rfl

@[simp] theorem resetBlock_limbs : (resetBlock s).limbs = s.limbs := rfl
@[simp] theorem resetBlock_status : (resetBlock s).status = State.reset.status := rfl
@[simp] theorem resetBlock_schedule : (resetBlock s).schedule = s.schedule := rfl
@[simp] theorem resetBlock_response : (resetBlock s).response = none := rfl

/-- Two states that differ in the hidden working state only look the same. -/
@[simp] theorem hideEngine_eng (e : Engine) : ({ s with eng := e } : State).hideEngine = s.hideEngine :=
  rfl

end Sys2Proof.Machine
end

