-- ==== Sys2Proof/Laws/Decode.lean ====
section
/-! SUPPORT. Laws of the decoder and the encoder (R60, R61). -/

namespace Sys2Proof

/-- The little-endian bytes of a word put together again give the word (R47). -/
theorem wordOfBytes_bytes (w : Word) :
    wordOfBytes (w.extractLsb' 0 8) (w.extractLsb' 8 8) (w.extractLsb' 16 8)
      (w.extractLsb' 24 8) = w := by
  apply BitVec.eq_of_getLsbD_eq
  intro i hi
  simp only [wordOfBytes, BitVec.getLsbD_append, BitVec.getLsbD_extractLsb']
  split
  · simp [*]
  · split
    · have h1 : i - 8 < 8 := by omega
      have h2 : 8 + (i - 8) = i := by omega
      simp [h1, h2]
    · split
      · have h1 : i - 8 - 8 < 8 := by omega
        have h2 : 16 + (i - 8 - 8) = i := by omega
        simp [h1, h2]
      · have h1 : i - 8 - 8 - 8 < 8 := by omega
        have h2 : 24 + (i - 8 - 8 - 8) = i := by omega
        simp [h1, h2]

/-- Decoding the bytes of a word is decoding the word. -/
theorem decodeBytes_word (w : Word) (rest : List Byte) :
    decodeBytes (bytesOfWord w ++ rest) =
      match decodeWord w with
      | .ok i => .ok (i, rest)
      | .error e => .error e := by
  cases h : decodeWord w <;>
    simp only [bytesOfWord, List.cons_append, List.nil_append, decodeBytes, wordOfBytes_bytes, h]

/-- A word is its two fields (R60). -/
theorem word_eq_fields (w : Word) : w = zeroField w ++ opcodeField w := by
  apply BitVec.eq_of_getLsbD_eq
  intro i hi
  simp only [zeroField, opcodeField, BitVec.getLsbD_append, BitVec.getLsbD_extractLsb']
  split
  · simp [*]
  · have h1 : i - 4 < 28 := by omega
    have h2 : 4 + (i - 4) = i := by omega
    simp [h1, h2]

/-- The decoder reads `i` from the word `encode i` and from no other (R61). -/
theorem decodeWord_eq_ok (w : Word) (i : Instr) : decodeWord w = .ok i ↔ w = encode i := by
  constructor
  · intro h
    unfold decodeWord at h
    split at h
    · rename_i hz
      have hw := word_eq_fields w
      rw [hz] at hw
      cases ho : decodeOpcode (opcodeField w) with
      | none => rw [ho] at h; cases h
      | some j =>
        rw [ho] at h
        cases h
        unfold decodeOpcode at ho
        split at ho
        · rename_i h1; cases ho; rw [hw, h1]; rfl
        · split at ho
          · rename_i h1; cases ho; rw [hw, h1]; rfl
          · split at ho
            · rename_i h1; cases ho; rw [hw, h1]; rfl
            · split at ho
              · rename_i h1; cases ho; rw [hw, h1]; rfl
              · cases ho
    · cases h
  · rintro rfl
    cases i <;> decide

/-- A legal word is one of the four command words (R61, R66). -/
theorem wellFormedWord_iff (w : Word) : wellFormedWord w = true ↔ ∃ i, w = encode i := by
  constructor
  · intro h
    simp only [wellFormedWord, Bool.and_eq_true, Bool.or_eq_true, beq_iff_eq] at h
    obtain ⟨hz, ho⟩ := h
    have hw := word_eq_fields w
    unfold zeroField opcodeField at hw
    rw [hz] at hw
    rcases ho with ((h1 | h1) | h1) | h1 <;> rw [h1] at hw
    · exact ⟨.isprime, hw⟩
    · exact ⟨.gcd, hw⟩
    · exact ⟨.modinv, hw⟩
    · exact ⟨.modexp, hw⟩
  · rintro ⟨i, rfl⟩
    cases i <;> decide

namespace Machine

/-- The command in flight is `i` exactly when CMD holds the word of `i` (R18, R136). -/
theorem commandInFlight_eq_some (s : State) (i : Instr) :
    s.commandInFlight = some i ↔ s.cmd = encode i := by
  have h := decodeBytes_word s.cmd []
  rw [List.append_nil] at h
  unfold State.commandInFlight State.commandBytes
  rw [h, ← decodeWord_eq_ok]
  cases decodeWord s.cmd <;> simp

/-- Issuing a word while idle: accepted if legal, refused if not (R130). -/
theorem issueCommand_idle (w : Word) (s : State) (h : s.status.busy = false) :
    issueCommand w s = if wellFormedWord w then startOperation w s else refuseCommand w s := by
  have hd := decodeBytes_word w []
  rw [List.append_nil] at hd
  unfold issueCommand
  rw [h, hd]
  cases hw : decodeWord w with
  | ok i =>
    rw [(wellFormedWord_iff w).2 ⟨i, (decodeWord_eq_ok w i).1 hw⟩]; simp
  | error e =>
    have : wellFormedWord w = false := by
      by_contra hc
      obtain ⟨i, hi⟩ := (wellFormedWord_iff w).1 (by simpa using hc)
      rw [(decodeWord_eq_ok w i).2 hi] at hw
      cases hw
    rw [this]; simp

/-- Issuing any word while busy: ignored (R130). -/
theorem issueCommand_busy (w : Word) (s : State) (h : s.status.busy = true) :
    issueCommand w s = { s with status := s.status.ignoredWrite } := by
  unfold issueCommand; rw [h]; rfl

end Machine

end Sys2Proof
end

