-- ==== Sys2Proof/Laws/Operands.lean ====
section
/-! SUPPORT. Laws of the data registers' integers (R5, R47) and of floored division (R142). -/

namespace Sys2Proof.Machine

@[simp] theorem zeroLimbs_length (l : Nat) : (zeroLimbs l).length = l := by simp [zeroLimbs]

@[simp] theorem encW_length (l : Nat) (v : Int) : (encW l v).length = l := by
  induction l generalizing v with
  | zero => rfl
  | succ l ih => simp [encW, ih]

@[simp] theorem complete_result_length (v : Int) (s : State) :
    (complete v s).result.length = s.limbs := by
  unfold complete; split <;> simp

/-- A data register of `n` limbs is a number below `2^(32n)`. -/
theorem uintW_lt (ls : List Limb) : uintW ls < 2 ^ (32 * ls.length) := by
  induction ls with
  | nil => simp [uintW]
  | cons x xs ih =>
    have hx := x.isLt
    have h : (2 : Nat) ^ (32 * (xs.length + 1)) = 2 ^ 32 * 2 ^ (32 * xs.length) := by
      rw [← Nat.pow_add]; congr 1; omega
    simp only [uintW, List.length_cons, h]
    generalize 2 ^ (32 * xs.length) = p at *
    nlinarith

/-- The sign bit is set exactly when the unsigned value is in the upper half (R47). -/
theorem signBit_iff (ls : List Limb) (h : ls ≠ []) :
    signBit ls = true ↔ 2 ^ (32 * ls.length - 1) ≤ uintW ls := by
  induction ls with
  | nil => exact absurd rfl h
  | cons x xs ih =>
    cases xs with
    | nil =>
      simp [signBit, uintW, BitVec.msb_eq_decide]
    | cons y ys =>
      have hx := x.isLt
      have ih := ih (by simp)
      have hs : signBit (x :: y :: ys) = signBit (y :: ys) := by
        simp [signBit, List.getLastD]
      have hp : (2 : Nat) ^ (32 * (x :: y :: ys).length - 1) =
          2 ^ 32 * 2 ^ (32 * (y :: ys).length - 1) := by
        rw [← Nat.pow_add]; congr 1; simp only [List.length_cons]; omega
      have hw : uintW (x :: y :: ys) = x.toNat + 2 ^ 32 * uintW (y :: ys) := rfl
      rw [hs, ih, hp, hw]
      generalize 2 ^ (32 * (y :: ys).length - 1) = p
      generalize uintW (y :: ys) = u
      omega

/-- The value of a register whose sign bit is read off its unsigned value (R5, R47). -/
theorem sintW_eq (ls : List Limb) (h : ls ≠ []) :
    sintW ls = if 2 ^ (32 * ls.length - 1) ≤ uintW ls
      then (uintW ls : Int) - 2 ^ (32 * ls.length) else (uintW ls : Int) := by
  unfold sintW
  by_cases hs : signBit ls = true
  · rw [if_pos hs, if_pos ((signBit_iff ls h).1 hs)]
  · rw [if_neg hs, if_neg (fun h' => hs ((signBit_iff ls h).2 h'))]; simp

theorem emod_mul_split (v : Int) {b p : Int} (hb : 0 < b) (hp : 0 < p) :
    v % (b * p) = v % b + b * (v / b % p) := by
  refine ((Int.ediv_emod_unique (q := v / b / p) (mul_pos hb hp)).2 ⟨?_, ?_, ?_⟩).2
  · have h1 := Int.mul_ediv_add_emod v b
    have h2 := Int.mul_ediv_add_emod (v / b) p
    calc v % b + b * (v / b % p) + b * p * (v / b / p)
        = b * (p * (v / b / p) + v / b % p) + v % b := by ring
      _ = v := by rw [h2, h1]
  · have h1 := Int.emod_nonneg v hb.ne'
    have h2 := Int.emod_nonneg (v / b) hp.ne'
    positivity
  · have h1 := Int.emod_lt_of_pos v hb
    have h2 := Int.emod_lt_of_pos (v / b) hp
    nlinarith

/-- `enc_W` writes the value modulo `2^W` (R5). -/
theorem uintW_encW (l : Nat) (v : Int) : (uintW (encW l v) : Int) = v % 2 ^ (32 * l) := by
  induction l generalizing v with
  | zero => simp [encW, uintW]
  | succ l ih =>
    have h : (2 : Int) ^ (32 * (l + 1)) = 2 ^ 32 * 2 ^ (32 * l) := by
      rw [← pow_add]; congr 1; omega
    simp only [encW, uintW, Nat.cast_add, Nat.cast_mul, ih, h, BitVec.toNat_ofInt]
    have hn : (0 : Int) ≤ v % 2 ^ 32 := Int.emod_nonneg _ (by norm_num)
    have hc : ((v % ((2 : Nat) ^ 32 : Nat)).toNat : Int) = v % 2 ^ 32 := by
      rw [Int.toNat_of_nonneg (by simpa using hn)]; norm_num
    rw [hc, emod_mul_split v (by norm_num) (by positivity)]
    norm_num

/-- `sint_W(enc_W(v)) = v` for a representable `v` (R5). -/
theorem sintW_encW (l : Nat) (v : Int) (hl : 1 ≤ l) (h : repW l v = true) :
    sintW (encW l v) = v := by
  have hne : encW l v ≠ [] := by
    intro h0
    have := encW_length l v
    rw [h0] at this
    simp at this
    omega
  simp only [repW, Bool.and_eq_true, decide_eq_true_eq] at h
  obtain ⟨h1, h2⟩ := h
  have hu := uintW_encW l v
  have hp : (2 : Int) ^ (32 * l) = 2 * 2 ^ (32 * l - 1) := by
    rw [← pow_succ']; congr 1; omega
  have hle : (2 ^ (32 * l - 1) ≤ uintW (encW l v)) ↔
      (2 : Int) ^ (32 * l - 1) ≤ v % 2 ^ (32 * l) := by
    rw [← hu]; exact_mod_cast Iff.rfl
  rw [sintW_eq _ hne, encW_length]
  simp only [hle, hu, hp]
  generalize (2 : Int) ^ (32 * l - 1) = p at *
  by_cases hv : 0 ≤ v
  · rw [Int.emod_eq_of_lt hv (by omega)]
    rw [if_neg (by omega)]
  · have : v % (2 * p) = v + 2 * p := by
      rw [← Int.add_emod_right, Int.emod_eq_of_lt (by omega) (by omega)]
    rw [this, if_pos (by omega)]
    omega

/-- Writing a limb keeps a register's width (R48). -/
theorem writeLimb_regsWf (s : State) (r : DataReg) (j : Nat) (d : Limb) (h : s.RegsWf) :
    (s.writeLimb r j d).RegsWf := by
  obtain ⟨h0, h1, h2, h3, h4⟩ := h
  cases r <;> simp [State.RegsWf, State.writeLimb, *]

/-! ## Floored division -/

theorem fmod_eq (a b : Int) : fmod a b = Int.fmod a b := by
  have := Int.mul_fdiv_add_fmod a b
  unfold fmod fdiv
  omega

/-- For a positive divisor the remainder is the Euclidean one, in `[0, b)` (R142). -/
theorem fmod_of_pos (a : Int) {b : Int} (h : 0 < b) : fmod a b = a % b := by
  rw [fmod_eq, Int.fmod_eq_emod_of_nonneg _ h.le]

theorem fmod_pos_range (a : Int) {b : Int} (h : 0 < b) : 0 ≤ fmod a b ∧ fmod a b < b := by
  rw [fmod_of_pos a h]
  exact ⟨Int.emod_nonneg _ h.ne', Int.emod_lt_of_pos _ h⟩

theorem fmod_neg_range (a : Int) {b : Int} (h : b < 0) : b < fmod a b ∧ fmod a b ≤ 0 := by
  have h1 : fmod a b = -fmod (-a) (-b) := by
    rw [fmod_eq, fmod_eq, Int.neg_fmod_neg, neg_neg]
  have h2 := fmod_pos_range (-a) (b := -b) (by omega)
  omega

/-- The remainder is smaller in magnitude than the divisor (R142). -/
theorem fmod_natAbs_lt (a : Int) {b : Int} (h : b ≠ 0) : (fmod a b).natAbs < b.natAbs := by
  rcases lt_or_gt_of_ne h with hb | hb
  · have := fmod_neg_range a hb; omega
  · have := fmod_pos_range a hb; omega

/-- The remainder is zero exactly when the divisor divides (R142). -/
theorem fmod_eq_zero_iff (a b : Int) : fmod a b = 0 ↔ b ∣ a := by
  rw [fmod_eq]
  exact Int.dvd_iff_fmod_eq_zero.symm

/-- `a = b * fdiv(a, b) + fmod(a, b)` (R142). -/
theorem fdiv_add_fmod (a b : Int) : b * fdiv a b + fmod a b = a := by unfold fmod; omega

/-- Halving a positive number (R143). -/
theorem fdiv_two (a : Int) : fdiv a 2 = a / 2 := by
  unfold fdiv; exact Int.fdiv_eq_ediv_of_nonneg a (by norm_num)

end Sys2Proof.Machine
end

