-- ==== Sys2Proof/Laws/Runs.lean ====
section
/-! SUPPORT. Once and for all what an engine step and an operation run to its end can do: the
inversion lemmas that the provers cite instead of unfolding a meaning (R136 to R138), and the end of
every run (R83, R93, R107, R120). -/

namespace Sys2Proof.Machine

/-! ## Runs of engine steps -/

section
variable {f : State → Host.Outcome State Fault Refusal} {s t : State} {n : Nat}

/-- A run that answers a state has ended the operation. -/
theorem runToEnd_idle (h : runToEnd f n s = .next t) : t.status.busy = false := by
  induction n generalizing s with
  | zero => cases h
  | succ n ih =>
    unfold runToEnd at h
    split at h
    · split at h
      · exact ih h
      · cases h; simp_all
    · cases h
    · cases h

/-- A run is a chain of engine steps: a relation that every step of a busy state has, and that
composes, holds from its first state to its last. -/
theorem runToEnd_rel (R : State → State → Prop)
    (step : ∀ a b, a.status.busy = true → f a = .next b → R a b)
    (trans : ∀ a b c, R a b → R b c → R a c)
    (hb : s.status.busy = true) (h : runToEnd f n s = .next t) : R s t := by
  induction n generalizing s with
  | zero => cases h
  | succ n ih =>
    unfold runToEnd at h
    split at h
    · rename_i u hu
      split at h
      · rename_i hub; exact trans _ _ _ (step _ _ hb hu) (ih hub h)
      · cases h; exact step _ _ hb hu
    · cases h
    · cases h

/-- With a measure that every unfinished step lowers, and no step stopping by that name, the bound of
a run is never used up. -/
theorem runToEnd_finishes (μ : State → Nat)
    (lower : ∀ a b, f a = .next b → b.status.busy = true → μ b < μ a)
    (nostop : ∀ a, f a ≠ .fault .engineNotFinished) (hμ : μ s < n) :
    runToEnd f n s ≠ .fault .engineNotFinished := by
  induction n generalizing s with
  | zero => omega
  | succ n ih =>
    intro h
    unfold runToEnd at h
    split at h
    · rename_i u hu
      split at h
      · rename_i hub
        have := lower _ _ hu hub
        exact ih (by omega) h
      · cases h
    · rename_i g hg
      cases h
      exact nostop _ hg
    · cases h

/-- With such a measure, a run from a state of an invariant under which no step stops answers a next
state. -/
theorem runToEnd_next (μ : State → Nat) (P : State → Prop)
    (lower : ∀ a b, f a = .next b → b.status.busy = true → μ b < μ a)
    (progress : ∀ a, P a → ∃ b, f a = .next b ∧ (b.status.busy = true → P b))
    (hP : P s) (hμ : μ s < n) : ∃ t, runToEnd f n s = .next t := by
  induction n generalizing s with
  | zero => omega
  | succ n ih =>
    obtain ⟨b, hb, hPb⟩ := progress s hP
    unfold runToEnd
    rw [hb]
    by_cases hub : b.status.busy = true
    · have := lower _ _ hb hub
      simpa [hub] using ih (hPb hub) (by omega)
    · exact ⟨b, by simp [hub]⟩

end

/-! ## What one engine step can do -/

/-- The ways an operation may end: a result, or DIV_ZERO (R137, R138, R172). -/
def OpResult.Legal : OpResult → Prop
  | .done _ => True
  | .fault code => code = ErrCode.divZero

/-- One engine step of a command writes the hidden working state only, or ends the operation (R33,
R136). -/
theorem engineStepOf_cases {i : Instr} {s t : State} (h : engineStepOf i s = .next t) :
    (∃ e, t = { s with eng := e }) ∨
      ∃ e r, OpResult.Legal r ∧ t = r.finish { s with eng := e } := by
  cases i with
  | isprime =>
    simp only [engineStepOf, isprimeStep] at h
    split at h
    · split at h <;> cases h
      · exact .inr ⟨_, .done 0, trivial, rfl⟩
      · exact .inl ⟨_, rfl⟩
    · split at h
      · cases h; exact .inr ⟨s.eng, .done 1, trivial, rfl⟩
      · split at h
        · cases h
        · split at h <;> cases h
          · exact .inr ⟨s.eng, .done 0, trivial, rfl⟩
          · exact .inl ⟨_, rfl⟩
  | gcd =>
    simp only [engineStepOf, gcdStep] at h
    split at h
    · cases h; exact .inl ⟨_, rfl⟩
    · split at h <;> cases h
      · exact .inr ⟨s.eng, .done _, trivial, rfl⟩
      · exact .inl ⟨_, rfl⟩
  | modinv =>
    simp only [engineStepOf, modinvStep] at h
    split at h
    · split at h <;> cases h
      · exact .inr ⟨_, .done 0, trivial, rfl⟩
      · exact .inl ⟨_, rfl⟩
    · split at h
      · split at h <;> cases h
        · exact .inr ⟨s.eng, .fault _, rfl, rfl⟩
        · exact .inl ⟨_, rfl⟩
      · split at h <;> cases h
        · exact .inr ⟨s.eng, .done _, trivial, rfl⟩
        · exact .inr ⟨s.eng, .done _, trivial, rfl⟩
  | modexp =>
    simp only [engineStepOf, modexpStep] at h
    split at h
    · split at h <;> cases h
      · exact .inr ⟨_, .fault _, rfl, rfl⟩
      · exact .inl ⟨_, rfl⟩
    · split at h
      · split at h
        · cases h
        · cases h; exact .inl ⟨_, rfl⟩
      · cases h; exact .inr ⟨s.eng, .done _, trivial, rfl⟩

@[simp] theorem finish_busy (r : OpResult) (s : State) : (r.finish s).status.busy = false := by
  cases r <;> simp [OpResult.finish]

/-- How many engine steps are enough for a command from a state (R83, R93, R107, R120). -/
def boundOf : Instr → State → Nat
  | .isprime => isprimeBound
  | .gcd => gcdBound
  | .modinv => modinvBound
  | .modexp => modexpBound

/-- Each meaning is its command's engine steps run to the end. -/
theorem exec_eq (i : Instr) (s : State) :
    exec i s = runOperation (engineStepOf i) (boundOf i s) s := by
  cases i <;> rfl

/-- While BUSY = 0 the engine does nothing (R136). -/
theorem exec_idle (i : Instr) {s : State} (h : s.status.busy = false) : exec i s = .next s := by
  rw [exec_eq, runOperation, h]; rfl

/-- What a command run to its end can do: it ends with a result or DIV_ZERO, and has otherwise changed
the hidden working state only (R33, R137, R138). -/
theorem exec_cases {i : Instr} {s t : State} (hb : s.status.busy = true)
    (h : exec i s = .next t) : ∃ e r, OpResult.Legal r ∧ t = r.finish { s with eng := e } := by
  rw [exec_eq, runOperation, if_pos hb] at h
  have hR := runToEnd_rel
    (fun a b => (∃ e, b = { a with eng := e }) ∨
      ∃ e r, OpResult.Legal r ∧ b = r.finish { a with eng := e })
    (fun a b _ hab => engineStepOf_cases hab)
    (by
      rintro a b c (⟨e, rfl⟩ | ⟨e, r, hr, rfl⟩) (⟨e', rfl⟩ | ⟨e', r', hr', rfl⟩)
      · exact .inl ⟨e', rfl⟩
      · exact .inr ⟨e', r', hr', rfl⟩
      · refine .inr ⟨e', r, hr, ?_⟩
        cases r with
        | done v => simp only [OpResult.finish, complete]; split <;> rfl
        | fault c => rfl
      · refine .inr ⟨e', r', hr', ?_⟩
        cases r <;> cases r' <;>
          simp only [OpResult.finish, complete] <;> (repeat' split) <;> first | rfl | simp_all [raiseFault])
    hb h
  rcases hR with ⟨e, rfl⟩ | hR
  · have := runToEnd_idle h
    simp_all
  · exact hR

end Sys2Proof.Machine
end

