-- ==== Sys2Proof/Laws/Termination.lean ====
section
/-! SUPPORT. Every operation ends (R83 (a), R93 (a), R107, R120), and no engine step stops in a state
whose working registers are those of the command in flight. -/

namespace Sys2Proof.Machine

/-- What every unfinished engine step of a command lowers. -/
def stepMeasure (i : Instr) (s : State) : Nat :=
  match i, s.eng.stage with
  | .isprime, .init => s.eng.wa.toNat + 1
  | .isprime, .loop => (s.eng.wa + 1 - s.eng.wi).toNat
  | .gcd, .init => s.eng.wb.natAbs + 1
  | .gcd, .loop => s.eng.wb.natAbs
  | .modinv, .init => s.eng.wb.natAbs + 1
  | .modinv, .loop => s.eng.wb.natAbs
  | .modexp, .init => s.eng.wb.toNat + 1
  | .modexp, .loop => s.eng.wb.toNat

/-- An unfinished engine step lowers the measure. -/
theorem engineStepOf_lowers (i : Instr) (a b : State) (h : engineStepOf i a = .next b)
    (hb : b.status.busy = true) : stepMeasure i b < stepMeasure i a := by
  cases i with
  | isprime =>
    simp only [engineStepOf, isprimeStep] at h
    split at h
    · rename_i hs
      split at h <;> cases h
      · simp at hb
      · simp only [stepMeasure, hs]; omega
    · rename_i hs
      split at h
      · cases h; simp at hb
      · split at h
        · cases h
        · split at h <;> cases h
          · simp at hb
          · rename_i h1 _ _
            have : a.eng.wi ≤ a.eng.wi * a.eng.wi := by
              have := Int.le_self_sq a.eng.wi
              rwa [pow_two] at this
            simp only [stepMeasure, hs]
            omega
  | gcd =>
    simp only [engineStepOf, gcdStep] at h
    split at h
    · rename_i hs; cases h; simp [stepMeasure, hs]
    · rename_i hs
      split at h <;> cases h
      · simp at hb
      · rename_i h0
        simpa [stepMeasure, hs] using fmod_natAbs_lt a.eng.wa h0
  | modinv =>
    simp only [engineStepOf, modinvStep] at h
    split at h
    · rename_i hs
      split at h <;> cases h
      · simp at hb
      · simp [stepMeasure, hs]
    · rename_i hs
      split at h
      · split at h <;> cases h
        · simp at hb
        · rename_i h0
          simpa [stepMeasure, hs] using fmod_natAbs_lt a.eng.wa h0
      · split at h <;> cases h <;> simp at hb
  | modexp =>
    simp only [engineStepOf, modexpStep] at h
    split at h
    · rename_i hs
      split at h <;> cases h
      · simp at hb
      · simp [stepMeasure, hs]
    · rename_i hs
      split at h
      · rename_i hpos
        split at h
        · cases h
        · cases h
          simp only [stepMeasure, hs, fdiv_two]
          omega
      · cases h; simp at hb

/-- The measure is below the bound each meaning runs with. -/
theorem stepMeasure_lt_bound (i : Instr) (s : State) : stepMeasure i s < boundOf i s := by
  cases i <;> cases hs : s.eng.stage <;>
    simp only [stepMeasure, hs, boundOf, isprimeBound, gcdBound, modinvBound, modexpBound] <;> omega

/-- No engine step stops for want of steps. -/
theorem engineStepOf_ne_unfinished (i : Instr) (a : State) :
    engineStepOf i a ≠ .fault .engineNotFinished := by
  cases i <;> simp only [engineStepOf, isprimeStep, gcdStep, modinvStep, modexpStep] <;> intro h <;>
    (repeat' split at h) <;> cases h

/-- No state at all uses up the bound of a meaning: the fault `engineNotFinished` is never raised. -/
theorem exec_ne_unfinished (i : Instr) (s : State) : exec i s ≠ .fault .engineNotFinished := by
  rw [exec_eq, runOperation]
  split
  · exact runToEnd_finishes (stepMeasure i) (engineStepOf_lowers i) (engineStepOf_ne_unfinished i)
      (stepMeasure_lt_bound i s)
  · simp

/-- From working registers of the command in flight, an engine step answers a next state, which has
them again unless the operation has ended (R136). -/
theorem engineStepOf_progress (i : Instr) (a : State) (h : a.engineWf i = true) :
    ∃ b, engineStepOf i a = .next b ∧ (b.status.busy = true → b.engineWf i = true) := by
  cases hs : a.eng.stage with
  | init =>
    simp only [State.engineWf, hs, Bool.and_eq_true, decide_eq_true_eq] at h
    obtain ⟨⟨ha, hb⟩, hc⟩ := h
    cases i with
    | isprime =>
      simp only [engineStepOf, isprimeStep, hs]
      split
      · exact ⟨_, rfl, by simp⟩
      · refine ⟨_, rfl, fun _ => ?_⟩
        simp only [State.engineWf, Bool.and_eq_true, decide_eq_true_eq]
        refine ⟨⟨ha, by omega⟩, by omega⟩
    | gcd =>
      simp only [engineStepOf, gcdStep, hs]
      exact ⟨_, rfl, fun _ => rfl⟩
    | modinv =>
      simp only [engineStepOf, modinvStep, hs]
      split
      · exact ⟨_, rfl, by simp⟩
      · exact ⟨_, rfl, fun _ => by simp [State.engineWf, hb]⟩
    | modexp =>
      simp only [engineStepOf, modexpStep, hs]
      split
      · exact ⟨_, rfl, by simp⟩
      · rename_i h0
        exact ⟨_, rfl, fun _ => by simp only [State.engineWf, Bool.and_eq_true, decide_eq_true_eq]; exact ⟨hc, h0⟩⟩
  | loop =>
    cases i with
    | isprime =>
      simp only [State.engineWf, hs, Bool.and_eq_true, decide_eq_true_eq] at h
      obtain ⟨⟨ha, hp⟩, hi⟩ := h
      simp only [engineStepOf, isprimeStep, hs]
      split
      · exact ⟨_, rfl, by simp⟩
      · rw [if_neg (by omega)]
        split
        · exact ⟨_, rfl, by simp⟩
        · refine ⟨_, rfl, fun _ => ?_⟩
          simp only [State.engineWf, Bool.and_eq_true, decide_eq_true_eq]
          exact ⟨⟨ha, hp⟩, by omega⟩
    | gcd =>
      simp only [engineStepOf, gcdStep, hs]
      split
      · exact ⟨_, rfl, by simp⟩
      · exact ⟨_, rfl, fun _ => by simp [State.engineWf]⟩
    | modinv =>
      simp only [State.engineWf, hs, decide_eq_true_eq] at h
      simp only [engineStepOf, modinvStep, hs]
      split
      · split
        · exact ⟨_, rfl, by simp⟩
        · exact ⟨_, rfl, fun _ => by simp [State.engineWf, h]⟩
      · split
        · exact ⟨_, rfl, by simp⟩
        · exact ⟨_, rfl, by simp⟩
    | modexp =>
      simp only [State.engineWf, hs, Bool.and_eq_true, decide_eq_true_eq] at h
      obtain ⟨hc, h0⟩ := h
      simp only [engineStepOf, modexpStep, hs]
      split
      · exact ⟨_, rfl, fun _ => by simp only [State.engineWf, Bool.and_eq_true, decide_eq_true_eq]; exact ⟨hc, h0⟩⟩
      · exact ⟨_, rfl, by simp⟩

/-- From working registers of the command in flight, the operation runs to its end (R209). -/
theorem exec_next (i : Instr) (s : State) (h : s.engineWf i = true) : ∃ t, exec i s = .next t := by
  rw [exec_eq, runOperation]
  split
  · exact runToEnd_next (stepMeasure i) (fun a => a.engineWf i = true) (engineStepOf_lowers i)
      (engineStepOf_progress i) h (stepMeasure_lt_bound i s)
  · exact ⟨s, rfl⟩

/-- As an acceptance leaves the working registers, they are those of any command (R133). -/
theorem startOperation_engineWf (w : Word) (s : State) (i : Instr) :
    (startOperation w s).engineWf i = true := by
  simp [State.engineWf]

/-- A command accepted in any state runs to its end. -/
theorem exec_startOperation_next (i : Instr) (s : State) :
    ∃ t, exec i (startOperation (encode i) s) = .next t :=
  exec_next i _ (startOperation_engineWf _ s i)

end Sys2Proof.Machine
end

