-- ==== Sys2Proof/Laws/Ops.lean ====
section
/-! SUPPORT. What a host transaction can do, said once (R41 to R52), and that every operation keeps the
registers' widths. -/

namespace Sys2Proof.Machine

/-! ## The register map -/

/-- What an offset that names a location is (R41). -/
theorem locOf_eq_some {l : Nat} {off : Offset} {loc : Loc} (h : locOf l off = some loc) :
    (loc = .cap ∧ off = 0x000#12) ∨ (loc = .ctrl ∧ off = 0x004#12) ∨
    (loc = .cmd ∧ off = 0x008#12) ∨ (loc = .status ∧ off = 0x00C#12) ∨
    (∃ j, loc = .limb .opA j ∧ 0x200 ≤ off.toNat ∧ off.toNat < 0x200 + 4 * l ∧
      j = (off.toNat - 0x200) / 4) ∨
    (∃ j, loc = .limb .opB j ∧ 0x400 ≤ off.toNat ∧ off.toNat < 0x400 + 4 * l ∧
      j = (off.toNat - 0x400) / 4) ∨
    (∃ j, loc = .limb .opC j ∧ 0x600 ≤ off.toNat ∧ off.toNat < 0x600 + 4 * l ∧
      j = (off.toNat - 0x600) / 4) ∨
    (∃ j, loc = .limb .result j ∧ 0x800 ≤ off.toNat ∧ off.toNat < 0x800 + 4 * l ∧
      j = (off.toNat - 0x800) / 4) := by
  have hoff : ∀ k : Nat, k < 2 ^ 12 → off.toNat = k → off = BitVec.ofNat 12 k := by
    intro k hk h0
    apply BitVec.eq_of_toNat_eq
    simp only [BitVec.toNat_ofNat, h0]
    omega
  unfold locOf at h
  simp only at h
  split at h
  · cases h; exact .inl ⟨rfl, hoff 0 (by decide) ‹_›⟩
  · split at h
    · cases h; exact .inr (.inl ⟨rfl, hoff 4 (by decide) ‹_›⟩)
    · split at h
      · cases h; exact .inr (.inr (.inl ⟨rfl, hoff 8 (by decide) ‹_›⟩))
      · split at h
        · cases h; exact .inr (.inr (.inr (.inl ⟨rfl, hoff 12 (by decide) ‹_›⟩)))
        · split at h
          · cases h; exact .inr (.inr (.inr (.inr (.inl ⟨_, rfl, by omega, by omega, rfl⟩))))
          · split at h
            · cases h
              exact .inr (.inr (.inr (.inr (.inr (.inl ⟨_, rfl, by omega, by omega, rfl⟩)))))
            · split at h
              · cases h
                exact .inr (.inr (.inr (.inr (.inr (.inr (.inl ⟨_, rfl, by omega, by omega, rfl⟩))))))
              · split at h
                · cases h
                  exact .inr (.inr (.inr (.inr (.inr (.inr (.inr
                    ⟨_, rfl, by omega, by omega, rfl⟩))))))
                · cases h

/-- Alignment, read off the two low bits of an offset (R44). -/
theorem performed_iff (width : Width) (off : Offset) :
    performed width off = true ↔ width = .word ∧ off.toNat % 4 = 0 := by
  have h : off.extractLsb' 0 2 = 0#2 ↔ off.toNat % 4 = 0 := by
    rw [← BitVec.toNat_inj]
    simp
  simp only [performed, Bool.and_eq_true, beq_iff_eq, h]

/-- An access reaches a location only if it is an aligned 32-bit one (R44). -/
theorem accessLoc_eq_some {l : Nat} {width : Width} {off : Offset} {loc : Loc}
    (h : accessLoc l width off = some loc) :
    width = .word ∧ off.toNat % 4 = 0 ∧ locOf l off = some loc := by
  unfold accessLoc at h
  split at h
  · exact ⟨((performed_iff _ _).1 ‹_›).1, ((performed_iff _ _).1 ‹_›).2, h⟩
  · cases h

/-- The aligned offset of a limb of an operand register (R41). -/
theorem offset_of_operand_limb {l : Nat} {off : Offset} {r : DataReg} {j : Nat}
    (h : locOf l off = some (.limb r j)) (ha : off.toNat % 4 = 0) (hr : r ≠ .result) :
    j < l ∧ (off = BitVec.ofNat 12 (0x200 + 4 * j) ∨ off = BitVec.ofNat 12 (0x400 + 4 * j) ∨
      off = BitVec.ofNat 12 (0x600 + 4 * j)) := by
  have hoff : ∀ k : Nat, off.toNat = k → off = BitVec.ofNat 12 k := by
    rintro k rfl
    simp
  rcases locOf_eq_some h with ⟨h, -⟩ | ⟨h, -⟩ | ⟨h, -⟩ | ⟨h, -⟩ | ⟨_, h, h1, h2, h3⟩ |
    ⟨_, h, h1, h2, h3⟩ | ⟨_, h, h1, h2, h3⟩ | ⟨_, h, h1, h2, h3⟩ <;> cases h
  · exact ⟨by omega, .inl (hoff _ (by omega))⟩
  · exact ⟨by omega, .inr (.inl (hoff _ (by omega)))⟩
  · exact ⟨by omega, .inr (.inr (hoff _ (by omega)))⟩
  · exact absurd rfl hr

/-! ## What a transaction can do -/

/-- A transaction changes nothing but the port's answer, or writes CTRL, CMD, STATUS or an operand limb
(R43, R52). -/
theorem transact_cases (tr : Transaction) (s : State) :
    (∃ r, transact tr s = { s with response := some r }) ∨
    (∃ d, tr = .write .word 0x004#12 d ∧
      transact tr s = { s with ctrl := Ctrl.ofWord d, response := some (.write .okay) }) ∨
    (∃ w, tr = .write .word 0x008#12 w ∧
      transact tr s = { issueCommand w s with response := some (.write .okay) }) ∨
    (∃ d, tr = .write .word 0x00C#12 d ∧
      transact tr s =
        { s with status := s.status.writeOneToClear d, response := some (.write .okay) }) ∨
    (∃ off d r j, tr = .write .word off d ∧ off.toNat % 4 = 0 ∧
      locOf s.limbs off = some (.limb r j) ∧ r ≠ .result ∧
      transact tr s =
        { (if s.status.busy then { s with status := s.status.ignoredWrite } else s.writeLimb r j d)
          with response := some (.write .okay) }) := by
  cases tr with
  | read width off =>
    left
    simp only [transact, busRead]
    split <;> exact ⟨_, rfl⟩
  | write width off d =>
    simp only [transact, busWrite]
    cases ha : accessLoc s.limbs width off with
    | none => exact .inl ⟨_, rfl⟩
    | some loc =>
      obtain ⟨rfl, hal, hl⟩ := accessLoc_eq_some ha
      rcases locOf_eq_some hl with ⟨rfl, rfl⟩ | ⟨rfl, rfl⟩ | ⟨rfl, rfl⟩ | ⟨rfl, rfl⟩ |
        ⟨j, rfl, -⟩ | ⟨j, rfl, -⟩ | ⟨j, rfl, -⟩ | ⟨j, rfl, -⟩
      · exact .inl ⟨_, rfl⟩
      · exact .inr (.inl ⟨_, rfl, rfl⟩)
      · exact .inr (.inr (.inl ⟨_, rfl, rfl⟩))
      · exact .inr (.inr (.inr (.inl ⟨_, rfl, rfl⟩)))
      · exact .inr (.inr (.inr (.inr ⟨_, _, _, _, rfl, hal, hl, by simp, rfl⟩)))
      · exact .inr (.inr (.inr (.inr ⟨_, _, _, _, rfl, hal, hl, by simp, rfl⟩)))
      · exact .inr (.inr (.inr (.inr ⟨_, _, _, _, rfl, hal, hl, by simp, rfl⟩)))
      · exact .inl ⟨_, rfl⟩

/-- What a step can do: one move of one agent (R53). -/
theorem step_cases {s t : State} (h : step s = .next t) :
    (s.schedule = [] ∧ engineRunMove s = .next t) ∨
    (∃ tr rest, s.schedule = .bus tr :: rest ∧ t = transact tr { s with schedule := rest }) ∨
    (∃ rest, s.schedule = .engine :: rest ∧ engineMove { s with schedule := rest } = .next t) ∨
    (∃ rest, s.schedule = .engineRun :: rest ∧
      engineRunMove { s with schedule := rest } = .next t) ∨
    (∃ rest, s.schedule = .reset :: rest ∧ t = resetBlock { s with schedule := rest }) := by
  unfold step at h
  split at h
  · exact .inl ⟨by assumption, h⟩
  · rename_i e rest hs
    cases e with
    | bus tr => simp only [move] at h; cases h; exact .inr (.inl ⟨_, _, hs, rfl⟩)
    | engine => exact .inr (.inr (.inl ⟨_, hs, h⟩))
    | engineRun => exact .inr (.inr (.inr (.inl ⟨_, hs, h⟩)))
    | reset => simp only [move] at h; cases h; exact .inr (.inr (.inr (.inr ⟨_, hs, rfl⟩)))

/-- What the engine's move of one step can do (R136). -/
theorem engineMove_cases {s t : State} (h : engineMove s = .next t) :
    (s.status.busy = false ∧ t = s) ∨
    (s.status.busy = true ∧ ∃ i, s.commandInFlight = some i ∧ engineStepOf i s = .next t) := by
  unfold engineMove at h
  split at h
  · rename_i hb
    split at h
    · exact .inr ⟨hb, _, ‹_›, h⟩
    · cases h
  · cases h; exact .inl ⟨by simp_all, rfl⟩

/-- What the engine's move to the end of the operation can do (R136). -/
theorem engineRunMove_cases {s t : State} (h : engineRunMove s = .next t) :
    (s.status.busy = false ∧ t = s) ∨
    (s.status.busy = true ∧ ∃ i, s.commandInFlight = some i ∧ exec i s = .next t) := by
  unfold engineRunMove at h
  split at h
  · rename_i hb
    split at h
    · exact .inr ⟨hb, _, ‹_›, h⟩
    · cases h
  · cases h; exact .inl ⟨by simp_all, rfl⟩

/-! ## Widths -/

theorem issueCommand_regsWf (w : Word) (s : State) (h : s.RegsWf) : (issueCommand w s).RegsWf := by
  obtain ⟨h0, h1, h2, h3, h4⟩ := h
  cases hb : s.status.busy
  · rw [issueCommand_idle w s hb]
    split <;> simp [State.RegsWf, *]
  · rw [issueCommand_busy w s hb]
    exact ⟨h0, h1, h2, h3, h4⟩

/-- Every transaction keeps the data registers' widths. -/
theorem transact_regsWf (tr : Transaction) (s : State) (h : s.RegsWf) : (transact tr s).RegsWf := by
  rcases transact_cases tr s with ⟨r, hr⟩ | ⟨d, -, hr⟩ | ⟨w, -, hr⟩ | ⟨d, -, hr⟩ |
    ⟨off, d, r, j, -, -, -, -, hr⟩ <;> rw [hr]
  · exact h
  · exact h
  · exact issueCommand_regsWf w s h
  · exact h
  · split
    · exact h
    · exact writeLimb_regsWf s r j d h

/-- Ending an operation keeps the data registers' widths. -/
theorem finish_regsWf (r : OpResult) (s : State) (h : s.RegsWf) : (r.finish s).RegsWf := by
  obtain ⟨h0, h1, h2, h3, h4⟩ := h
  cases r <;> simp [OpResult.finish, State.RegsWf, *]

/-- The byte address of a window offset names that offset again (R40, R42). -/
theorem offsetOfAddress_windowBase (off : Offset) :
    offsetOfAddress (Config.windowBase + off.toNat) = some off := by
  have h := off.isLt
  unfold offsetOfAddress
  rw [if_pos ⟨by omega, by omega⟩, Nat.add_sub_cancel_left, BitVec.ofNat_toNat,
    BitVec.setWidth_eq]

/-- The window base is 4 KiB aligned (R4). -/
theorem windowBase_wellFormed : wellFormedBase Config.windowBase = true := by
  simp [wellFormedBase, Config.windowBase]

/-! ## What the end of an operation, a command write and a step can do -/

/-- What the end of an operation leaves alone, and that it sets DONE (R137, R138). -/
theorem finish_fields (r : OpResult) (s : State) :
    (r.finish s).limbs = s.limbs ∧ (r.finish s).opA = s.opA ∧ (r.finish s).opB = s.opB ∧
      (r.finish s).opC = s.opC ∧ (r.finish s).ctrl = s.ctrl ∧ (r.finish s).cmd = s.cmd ∧
      (r.finish s).status.wign = s.status.wign ∧ (r.finish s).schedule = s.schedule ∧
      (r.finish s).response = s.response ∧ (r.finish s).status.done = true ∧
      (r.finish s).eng = s.eng := by
  cases r <;> simp [OpResult.finish]

/-- What the end of an operation says in ERR, ERRCODE and RESULT (R137, R138, R170). -/
theorem finish_status (r : OpResult) (hr : r.Legal) (s : State) :
    ((r.finish s).status.err = true ↔ (r.finish s).status.errcode ≠ 0#4) ∧
      (r.finish s).status.errcode ≠ 1#4 ∧ (r.finish s).status.errcode.toNat ≤ 3 ∧
      ((r.finish s).status.err = true → (r.finish s).result = zeroLimbs s.limbs) := by
  cases r with
  | done v =>
    simp only [OpResult.finish, complete]
    split
    · simp [ErrCode.none]
    · simp [ErrCode.range]
  | fault c =>
    obtain rfl : c = _ := hr
    simp [OpResult.finish, ErrCode.divZero]

/-- A command write is ignored, accepted or refused (R130). -/
theorem issueCommand_cases (w : Word) (s : State) :
    (s.status.busy = true ∧ issueCommand w s = { s with status := s.status.ignoredWrite }) ∨
      (s.status.busy = false ∧ ∃ i, w = encode i ∧ issueCommand w s = startOperation w s) ∨
      (s.status.busy = false ∧ wellFormedWord w = false ∧ issueCommand w s = refuseCommand w s) := by
  cases hb : s.status.busy
  · right
    rw [issueCommand_idle w s hb]
    cases hw : wellFormedWord w
    · right; simp
    · left; simpa using (wellFormedWord_iff w).1 hw
  · exact .inl ⟨rfl, issueCommand_busy w s hb⟩

/-- All one step can do: a transaction, a reset, or a move of the engine, which is nothing while idle,
a change of the hidden working state, or the end of the operation (R9, R136). -/
theorem step_effects {s t : State} (h : step s = .next t) :
    (∃ tr rest, s.schedule = .bus tr :: rest ∧ t = transact tr { s with schedule := rest }) ∨
      (∃ rest, s.schedule = .reset :: rest ∧ t = resetBlock { s with schedule := rest }) ∨
      ((s.schedule = [] ∨ (∃ rest, s.schedule = .engine :: rest) ∨
          ∃ rest, s.schedule = .engineRun :: rest) ∧
        ∃ rest, s.status.busy = false ∧ t = { s with schedule := rest } ∨
          s.status.busy = true ∧ ((∃ e, t = { s with schedule := rest, eng := e }) ∨
            ∃ e r, OpResult.Legal r ∧ t = r.finish { s with schedule := rest, eng := e })) := by
  rcases step_cases h with ⟨h0, h⟩ | h | ⟨rest, h0, h⟩ | ⟨rest, h0, h⟩ | h
  · refine .inr (.inr ⟨.inl h0, [], ?_⟩)
    have hs : s = { s with schedule := [] } := by rw [← h0]
    rcases engineRunMove_cases h with ⟨hb, rfl⟩ | ⟨hb, i, hi, h⟩
    · exact .inl ⟨hb, hs⟩
    · obtain ⟨e, r, hr, h⟩ := exec_cases hb h
      exact .inr ⟨hb, .inr ⟨e, r, hr, by rw [h, ← h0]⟩⟩
  · exact .inl h
  · refine .inr (.inr ⟨.inr (.inl ⟨_, h0⟩), rest, ?_⟩)
    rcases engineMove_cases h with ⟨hb, rfl⟩ | ⟨hb, i, hi, h⟩
    · exact .inl ⟨hb, rfl⟩
    · exact .inr ⟨hb, engineStepOf_cases h⟩
  · refine .inr (.inr ⟨.inr (.inr ⟨_, h0⟩), rest, ?_⟩)
    rcases engineRunMove_cases h with ⟨hb, rfl⟩ | ⟨hb, i, hi, h⟩
    · exact .inl ⟨hb, rfl⟩
    · exact .inr ⟨hb, .inr (exec_cases hb h)⟩
  · exact .inr (.inl h)

/-- The bytes of the window outside STATUS and RESULT depend on the registers they lie in alone
(R41, R47). -/
theorem windowByte_congr (s t : State) (a : Offset) (hl : t.limbs = s.limbs) (hA : t.opA = s.opA)
    (hB : t.opB = s.opB) (hC : t.opC = s.opC) (hc : t.ctrl = s.ctrl) (hcmd : t.cmd = s.cmd)
    (h3 : a.toNat / 4 ≠ 3) (h8 : ¬ (0x800 ≤ a.toNat ∧ a.toNat < 0x800 + 4 * s.limbs)) :
    t.windowByte a = s.windowByte a := by
  unfold State.windowByte
  rw [hl]
  have hm : (BitVec.ofNat 12 (4 * (a.toNat / 4))).toNat = 4 * (a.toNat / 4) := by
    have := a.isLt
    simp only [BitVec.toNat_ofNat]; omega
  cases hloc : locOf s.limbs (BitVec.ofNat 12 (4 * (a.toNat / 4))) with
  | none => rfl
  | some loc =>
    simp only
    congr 2
    rcases locOf_eq_some hloc with ⟨rfl, h⟩ | ⟨rfl, h⟩ | ⟨rfl, h⟩ | ⟨rfl, h⟩ | ⟨j, rfl, h⟩ |
      ⟨j, rfl, h⟩ | ⟨j, rfl, h⟩ | ⟨j, rfl, h⟩
    · simp [State.readLoc, hl]
    · simp [State.readLoc, hc]
    · simp [State.readLoc, hcmd]
    · have := congrArg BitVec.toNat h
      rw [hm] at this
      simp at this
      omega
    · simp [State.readLoc, State.readLimb, State.dataReg, hA]
    · simp [State.readLoc, State.readLimb, State.dataReg, hB]
    · simp [State.readLoc, State.readLimb, State.dataReg, hC]
    · rw [hm] at h; omega

end Sys2Proof.Machine
end

