-- ==== Sys2Proof/Laws/PerInstr.lean ====
section
/-! SUPPORT. Facts about each command as syntax: its command word has the fields of R60 and R61. -/

namespace Sys2Proof.Laws.Encoding

/-- The command is well formed, its word is a legal one (R66), and the word's ZERO field is zero and
its OPCODE field the command's (R60, R61). -/
def Statement (i : Instr) : Prop :=
  i.wellFormed = true ∧ wellFormedWord (encode i) = true ∧ zeroField (encode i) = 0#28 ∧
    decodeOpcode (opcodeField (encode i)) = some i

theorem isprime : Statement .isprime := by unfold Statement; decide

theorem gcd : Statement .gcd := by unfold Statement; decide

theorem modinv : Statement .modinv := by unfold Statement; decide

theorem modexp : Statement .modexp := by unfold Statement; decide

end Sys2Proof.Laws.Encoding
end

