-- ==== Sys2Proof/Tests/Slice0.lean ====
section
/-! SUPPORT. Small tests: the checks of WellFormed, words written out from the opcode table, one step of
each command, transactions of 95_test_vectors.md, and for each obligation with hypotheses one concrete
case that meets them. -/

namespace Sys2Proof.Tests

open Sys2Proof.Machine

/-! ## Helpers -/

/-- An idle instance with `l` limbs and the given operands, everything else as after reset. -/
def idle (l : Nat) (a b c : Int) : State :=
  { State.resetOf l with opA := encW l a, opB := encW l b, opC := encW l c }

/-- The same, with the command `i` just accepted. -/
def accepted (i : Instr) (l : Nat) (a b c : Int) : State := startOperation (encode i) (idle l a b c)

/-- What a host sees of an outcome: STATUS, and the integer in RESULT. -/
def seen : Host.Outcome State Fault Refusal → Option (Nat × Int)
  | .next t => some (t.status.word.toNat, sintW t.result)
  | .fault _ => none
  | .refused _ => none

/-- What a host sees when it places the command on an idle 32-bit instance and the machine makes one
step. -/
def runs (i : Instr) (a b c : Int) : Option (Nat × Int) :=
  seen (step ((idle 1 a b c).withFetchWord 32 (encode i).toNat))

/-- The state of a next outcome. -/
def nextState : Host.Outcome State Fault Refusal → Option State
  | .next t => some t
  | .fault _ => none
  | .refused _ => none

/-- The state with its next moves. -/
def scheduled (moves : List Event) (s : State) : State := { s with schedule := moves }

/-- A write of the word `d` at an offset, as a move of the host. -/
def wr (off : Offset) (d : Word) : Event := .bus (.write .word off d)

/-! ## WellFormed: each check refuses an ill-formed term -/

theorem test_limbs_checked :
    wellFormedLimbs 0 = false ∧ wellFormedLimbs 1 = true ∧ wellFormedLimbs 128 = true ∧
      wellFormedLimbs 129 = false := by decide

theorem test_base_checked :
    wellFormedBase 0 = true ∧ wellFormedBase 4096 = true ∧ wellFormedBase 4 = false ∧
      wellFormedBase 0x1800 = false := by decide

theorem test_words_checked :
    wellFormedWord 0x00000000#32 = false ∧ wellFormedWord 0x00000005#32 = false ∧
      wellFormedWord 0x0000000F#32 = false ∧ wellFormedWord 0x00000013#32 = false ∧
      wellFormedWord 0x80000001#32 = false ∧ wellFormedWord 0x00000004#32 = true := by decide

theorem test_commands_wellFormed :
    [Instr.isprime, .gcd, .modinv, .modexp].all Instr.wellFormed = true := by decide

/-! ## Decoding: words written out bit by bit from the opcode table (R61) -/

theorem test_decode_isprime :
    decodeWord 0b00000000000000000000000000000001#32 = .ok .isprime := by decide

theorem test_decode_gcd :
    decodeWord 0b00000000000000000000000000000010#32 = .ok .gcd := by decide

theorem test_decode_modinv :
    decodeWord 0b00000000000000000000000000000011#32 = .ok .modinv := by decide

theorem test_decode_modexp :
    decodeWord 0b00000000000000000000000000000100#32 = .ok .modexp := by decide

theorem test_decode_refuses_by_name :
    decodeWord 0x00000000#32 = .error (.reservedOpcode 0#4) ∧
      decodeWord 0x0000000F#32 = .error (.reservedOpcode 15#4) ∧
      decodeWord 0x00000012#32 = .error .upperBitsNonzero ∧
      decodeBytes [0x01#8, 0x00#8, 0x00#8] = .error .truncated := by decide

theorem test_decode_leaves_the_rest :
    decodeBytes [0x02#8, 0x00#8, 0x00#8, 0x00#8, 0xAB#8] = .ok (.gcd, [0xAB#8]) := by decide

theorem test_decodeTableWord :
    decodeTableWord 32 1 = some .isprime ∧ decodeTableWord 32 2 = some .gcd ∧
      decodeTableWord 32 3 = some .modinv ∧ decodeTableWord 32 4 = some .modexp ∧
      decodeTableWord 32 0x13 = none ∧ decodeTableWord 32 5 = none := by decide

/-! ## One step of each command, as the first after reset: 95_test_vectors.md V2 to V5 -/

theorem test_isprime_values : runs .isprime 9 0 0 = some (0x2, 0) ∧
    runs .isprime 97 0 0 = some (0x2, 1) ∧ runs .isprime (-7) 0 0 = some (0x2, 0) := by decide

theorem test_isprime_no_sign_extension :
    seen (exec .isprime (accepted .isprime 2 0xFFFFFFF9 0 0)) = some (0x2, 0) := by decide

theorem test_gcd_values : runs .gcd 12 18 0 = some (0x2, 6) ∧
    runs .gcd (-5) 0 0 = some (0x2, -5) := by decide

theorem test_gcd_sign_of_second_operand : runs .gcd 6 (-4) 0 = some (0x2, -2) := by decide

theorem test_modinv_values : runs .modinv 3 10 0 = some (0x2, 7) ∧
    runs .modinv 7 60 0 = some (0x2, 43) := by decide

theorem test_modinv_divides_by_zero : runs .modinv 2 4 0 = some (0x206, 0) := by decide

theorem test_modexp_values : runs .modexp 5 7 77 = some (0x2, 47) ∧
    runs .modexp 7 0 1 = some (0x2, 1) := by decide

theorem test_modexp_divides_by_zero : runs .modexp 5 7 0 = some (0x206, 0) := by decide

/-- Program P1 counts five engine steps for MODINV(3, 10). -/
theorem test_modinv_five_engine_steps :
    (nextState (engineSteps 4 (accepted .modinv 1 3 10 0))).map (·.status.busy) = some true ∧
      seen (engineSteps 5 (accepted .modinv 1 3 10 0)) = some (0x2, 7) := by decide

/-! ## Transactions: 95_test_vectors.md V6 -/

theorem test_cap_reads : -- V6.1
    (transact (.read .word 0x000#12) (State.resetOf 1)).response = some (.read .okay 1#32) ∧
      (transact (.read .word 0x000#12) (State.resetOf 128)).response = some (.read .okay 0x80#32) := by
  decide

theorem test_illegal_command : -- V6.8
    seen (step (scheduled [wr 0x008#12 0x13#32] (idle 1 3 10 0))) = some (0x106, 0) := by decide

theorem test_clear_done_keeps_error : -- V6.10
    (transact (.write .word 0x00C#12 2#32) (refuseCommand 0#32 (idle 1 3 10 0))).status.word =
      0x104#32 := by decide

theorem test_ignored_write : -- V6.13
    (transact (.write .word 0x200#12 4#32) (accepted .modinv 1 3 10 0)).status.word = 0x9#32 ∧
      (transact (.write .word 0x200#12 4#32) (accepted .modinv 1 3 10 0)).opA = [3#32] := by decide

theorem test_error_responses : -- V6.18 to V6.20
    (transact (.write .word 0x800#12 1#32) State.reset).response = some (.write .error) ∧
      (transact (.read .word 0x204#12) State.reset).response = some (.read .error 0#32) ∧
      (transact (.read .word 0x202#12) State.reset).response = some (.read .error 0#32) ∧
      (transact (.read .half 0x200#12) State.reset).response = some (.read .error 0#32) := by decide

theorem test_control_reads_back_one_bit : -- V6.21
    (transact (.read .word 0x004#12) (transact (.write .word 0x004#12 0xFFFFFFFF#32)
      State.reset)).response = some (.read .okay 1#32) := by decide

theorem test_first_commands_after_reset : -- V6.30
    runs .isprime 0 0 0 = some (0x2, 0) ∧ runs .gcd 0 0 0 = some (0x2, 0) ∧
      runs .modinv 0 0 0 = some (0x2, 1) ∧ runs .modexp 0 0 0 = some (0x206, 0) := by decide

/-! ## Host sequences: 95_test_vectors.md V7 -/

/-- The keys a GENKEY returned. -/
def keys : Except HostStop ((Key × Key) × State) → Except HostStop (Key × Key)
  | .ok (k, _) => .ok k
  | .error x => .error x

theorem test_genkey_two_five : -- V7.6
    keys (genkey 4 (.integer 2) (.integer 5) State.reset) = .ok (⟨10, 3⟩, ⟨10, 3⟩) := by
  decide +kernel

theorem test_genkey_errors : -- V7.9, V7.11
    keys (genkey 4 (.integer 7) (.integer 7) State.reset) = .error .equalFactors ∧
      keys (genkey 4 (.integer 4) (.integer 4) State.reset) = .error .notPrime := by decide +kernel

/-! ## Each obligation with hypotheses has a case that meets them -/

theorem test_witness_RegisterDenotesSumOfLimbs :
    1 ≤ 2 ∧ ([0x00000005#32, 0x80000000#32] : List Limb).length = 2 := by decide

theorem test_witness_EncodingOfIntegersIsUnique :
    ([0x80000000#32] : List Limb) ≠ [] ∧ 1 ≤ 1 ∧ repW 1 (-2147483648) = true ∧
      repW 1 2147483647 = true ∧ ([0x80000000#32] : List Limb).length = 1 := by decide

theorem test_witness_FlooredDivisionLaws :
    (-3 : Int) ≠ 0 ∧ (1 : Int) ≠ 0 ∧ (7 : Int) ≥ 0 ∧ (1 : Int) > 0 ∧ (-3 : Int) < 0 := by decide

theorem test_witness_QuotientIsTheFloor : (1 : Int) ≠ 0 ∧ (1 : Int) > 0 ∧ (-1 : Int) < 0 := by decide

theorem test_witness_RegisterMapOfTheWindow :
    wellFormedLimbs 1 = true ∧ wellFormedLimbs 128 = true ∧ 0 < 1 ∧ 127 < 128 ∧
      [0x010, 0x1FC, 0x204, 0x3FC, 0x404, 0x5FC, 0x604, 0x7FC, 0x804, 0xFFC].all
        (fun o => (BitVec.ofNat 12 o).toNat % 4 == 0 && locOf 1 (BitVec.ofNat 12 o) == none) = true ∧
      [0x010, 0x1FC, 0xA00, 0xFFC].all
        (fun o => (BitVec.ofNat 12 o).toNat % 4 == 0 && locOf 128 (BitVec.ofNat 12 o) == none) = true ∧
      [0x000, 0x00C, 0x200, 0x3FC, 0x400, 0x5FC, 0x600, 0x7FC, 0x800, 0x9FC].all
        (fun o => locOf 128 (BitVec.ofNat 12 o) != none) = true := by decide

theorem test_witness_UnperformedAccessesAnswerError :
    (Width.wide 64 ≠ .word) ∧ (0x202#12 : Offset).toNat % 4 ≠ 0 := by decide

theorem test_witness_UnmappedAccessesAnswerError :
    (0x204#12 : Offset).toNat % 4 = 0 ∧ locOf (State.resetOf 1).limbs 0x204#12 = none ∧
      locOf (State.resetOf 128).limbs 0xA00#12 = none := by decide

theorem test_witness_ReadOnlyRegistersRefuseWrites :
    0 < (State.resetOf 1).limbs ∧ 127 < (State.resetOf 128).limbs ∧ (State.resetOf 128).limbs ≤ 128 ∧
      (0x9FC#12 : Offset).toNat % 4 = 0 ∧
      locOf (State.resetOf 128).limbs 0x9FC#12 = some (.limb .result 127) := by decide

theorem test_witness_LimbAccesses :
    (State.resetOf 128).limbs ≤ 128 ∧ 127 < (State.resetOf 128).limbs ∧
      (State.resetOf 128).status.busy = false ∧ 0 < (State.resetOf 1).limbs := by decide

theorem test_witness_OperandWriteChangesItsFourBytes :
    (idle 2 5 0 0).RegsWf ∧ (idle 2 5 0 0).status.busy = false ∧ 1 < (idle 2 5 0 0).limbs ∧
      (0x207#12 : Offset).toNat / 4 = 0x80 + 1 := by decide

theorem test_witness_WritesIgnoredWhileBusy :
    (accepted .gcd 2 12 18 0).status.busy = true ∧ (accepted .gcd 2 12 18 0).limbs ≤ 128 ∧
      1 < (accepted .gcd 2 12 18 0).limbs ∧ (0x204#12 : Offset) = BitVec.ofNat 12 (0x200 + 4 * 1) := by
  decide

theorem test_witness_ControlWordsHaveTheirFields : (idle 128 0 0 0).limbs ≤ 128 := by decide

theorem test_witness_AcceptanceStartsTheOperation : (idle 1 3 10 0).status.busy = false := by decide

theorem test_witness_RefusalOfIllegalWords :
    (idle 1 3 10 0).status.busy = false ∧ wellFormedWord 0x00000000#32 = false ∧
      wellFormedWord 0x00000005#32 = false ∧ wellFormedWord 0x00000010#32 = false := by decide

theorem test_witness_NormalCompletion :
    repW (accepted .gcd 1 0 0 0).limbs 2147483647 = true ∧
      repW (accepted .gcd 1 0 0 0).limbs 2147483648 = false := by decide

theorem test_witness_InterruptOutput : (0x00000002#32 : Word).getLsbD 1 = true := by decide

theorem test_witness_ResetStep :
    (scheduled [.reset, .engine] (accepted .gcd 1 12 18 0)).schedule = .reset :: [.engine] := by decide

theorem test_witness_FirstCommandsAfterReset :
    wellFormedLimbs 1 = true ∧ wellFormedLimbs 128 = true := by decide

theorem test_witness_StepRunsTheDecodedCommand :
    (accepted .gcd 1 12 18 0).status.busy = true ∧
      decodeBytes (accepted .gcd 1 12 18 0).commandBytes = .ok (.gcd, []) ∧
      Instr.gcd.wellFormed = true ∧ (accepted .gcd 1 12 18 0).schedule = [] ∧
      (scheduled [.engineRun] (accepted .gcd 1 12 18 0)).schedule = .engineRun :: [] ∧
      (scheduled [.engine] (accepted .gcd 1 12 18 0)).schedule = .engine :: [] ∧
      (idle 1 0 0 0).status.busy = false ∧
      (scheduled [wr 0x004#12 1#32] (idle 1 0 0 0)).schedule =
        .bus (.write .word 0x004#12 1#32) :: [] := by decide

/-- The accepted state is in stage INIT; after one engine step the operation is in stage LOOP. -/
theorem test_witness_IsprimeEngineSteps :
    (accepted .isprime 1 9 0 0).status.busy = true ∧ (accepted .isprime 1 9 0 0).cmd = encode .isprime ∧
      (accepted .isprime 1 9 0 0).eng.stage = .init ∧
      (nextState (engineMove (accepted .isprime 1 9 0 0))).any (fun t => t.status.busy &&
        t.cmd == encode .isprime && t.eng.stage == .loop && t.eng.wi != 0) = true := by decide

theorem test_witness_GcdEngineSteps :
    (accepted .gcd 1 12 18 0).status.busy = true ∧ (accepted .gcd 1 12 18 0).cmd = encode .gcd ∧
      (accepted .gcd 1 12 18 0).eng.stage = .init ∧
      (nextState (engineMove (accepted .gcd 1 12 18 0))).any (fun t => t.status.busy &&
        t.cmd == encode .gcd && t.eng.stage == .loop) = true := by decide

theorem test_witness_ModinvEngineSteps :
    (accepted .modinv 1 3 10 0).status.busy = true ∧ (accepted .modinv 1 3 10 0).cmd = encode .modinv ∧
      (accepted .modinv 1 3 10 0).eng.stage = .init ∧
      (nextState (engineMove (accepted .modinv 1 3 10 0))).any (fun t => t.status.busy &&
        t.cmd == encode .modinv && t.eng.stage == .loop) = true := by decide

theorem test_witness_ModexpEngineSteps :
    (accepted .modexp 1 5 7 77).status.busy = true ∧ (accepted .modexp 1 5 7 77).cmd = encode .modexp ∧
      (accepted .modexp 1 5 7 77).eng.stage = .init ∧
      (nextState (engineMove (accepted .modexp 1 5 7 77))).any (fun t => t.status.busy &&
        t.cmd == encode .modexp && t.eng.stage == .loop && t.eng.wc != 0) = true := by decide

theorem test_witness_WholeOperationIsItsEngineSteps :
    (accepted .modinv 1 3 10 0).status.busy = true ∧
      (accepted .modinv 1 3 10 0).commandInFlight = some .modinv := by decide

theorem test_witness_IsprimeDecidesPrimality : (idle 1 97 0 0).RegsWf ∧ (idle 2 (-7) 0 0).RegsWf := by
  decide

theorem test_witness_GcdClosedForm : (idle 1 6 (-4) 0).RegsWf ∧ (idle 128 6 0 0).RegsWf := by
  decide +kernel

/-- One operand pair at the edge of each of the six rows. -/
theorem test_witness_ModinvOutcomeTable :
    (idle 1 2 1 0).RegsWf ∧ 2 = sintW (idle 1 2 1 0).opA ∧ 1 = sintW (idle 1 2 1 0).opB ∧
      1 = sintW (idle 1 1 0 0).opA ∧ 0 = sintW (idle 1 1 0 0).opB ∧
      2 = sintW (idle 1 2 0 0).opA ∧ -1 = sintW (idle 1 2 (-1) 0).opB ∧
      2 = sintW (idle 1 3 2 0).opB ∧ Int.gcd 3 2 = 1 ∧
      2 = sintW (idle 1 2 2 0).opB ∧ Int.gcd 2 2 > 1 := by decide

theorem test_witness_ModinvInsideItsContract :
    (idle 1 1 2 0).RegsWf ∧ 1 = sintW (idle 1 1 2 0).opA ∧ 2 = sintW (idle 1 1 2 0).opB ∧
      (1 : Int) ≤ 1 ∧ (2 : Int) ≤ 2 ∧ Int.gcd 1 2 = 1 := by decide

/-- One operand triple at the edge of each of the four rows. -/
theorem test_witness_ModexpOutcomeTable :
    (idle 1 5 0 0).RegsWf ∧ 5 = sintW (idle 1 5 0 0).opA ∧ 0 = sintW (idle 1 5 0 0).opB ∧
      0 = sintW (idle 1 5 0 0).opC ∧ 1 = sintW (idle 1 5 0 1).opC ∧
      1 = sintW (idle 1 5 1 1).opB ∧ -1 = sintW (idle 1 5 1 (-1)).opC := by decide

theorem test_witness_ModexpWorkingRegistersStayReduced :
    (nextState (engineSteps 2 (accepted .modexp 1 5 7 77))).any (fun t => t.status.busy &&
        t.eng.stage == .loop) = true ∧
      (nextState (engineSteps 1 (accepted .modexp 1 5 7 (-77)))).any (fun t => t.status.busy &&
        t.eng.stage == .loop) = true ∧
      sintW (idle 1 5 7 77).opC > 0 ∧ sintW (idle 1 5 7 (-77)).opC < 0 := by decide

theorem test_witness_ModinvWorkingRegistersStayBounded :
    (idle 1 3 10 0).RegsWf ∧
      (nextState (engineSteps 3 (accepted .modinv 1 3 10 0))).any (fun t => t.status.busy &&
        t.eng.stage == .loop) = true := by decide

theorem test_witness_RangeFaultIsUnreachable :
    (idle 1 (-2147483648) (-2147483648) 0).RegsWf ∧
      (nextState (exec .gcd (accepted .gcd 1 (-2147483648) (-2147483648) 0))).isSome = true := by decide

/-- Each of the three causes, and one run without a fault. -/
theorem test_witness_DivZeroCausesAreComplete :
    (idle 1 2 0 0).RegsWf ∧ seen (exec .modinv (accepted .modinv 1 2 0 0)) = some (0x206, 0) ∧
      seen (exec .modinv (accepted .modinv 1 2 2 0)) = some (0x206, 0) ∧
      seen (exec .modexp (accepted .modexp 1 2 2 0)) = some (0x206, 0) ∧
      seen (exec .gcd (accepted .gcd 1 2 2 0)) = some (0x2, 2) := by decide

theorem test_witness_CommandFrame :
    (accepted .modinv 1 3 10 0).status.busy = true ∧
      (nextState (exec .modinv (accepted .modinv 1 3 10 0))).isSome = true ∧
      (0x804#12 : Offset).toNat / 4 ≠ 3 ∧ ¬ (0x804#12 : Offset).toNat < 0x800 + 4 * 1 := by decide

theorem test_witness_EngineStepFrame :
    (nextState (engineMove (accepted .gcd 1 12 18 0))).any (·.status.busy) = true := by decide

/-- A step that sets BUSY, one that clears it by completing, one that clears it by reset. -/
theorem test_witness_BusyIsSetByAcceptanceAlone :
    (nextState (step (scheduled [wr 0x008#12 2#32] (idle 1 12 18 0)))).any (·.status.busy) = true ∧
      (nextState (step (accepted .gcd 1 12 18 0))).any (fun t => !t.status.busy) = true ∧
      (nextState (step (scheduled [.reset] (accepted .gcd 1 12 18 0)))).any
        (fun t => !t.status.busy) = true := by decide

/-- Steps that change RESULT: a completion, a refusal, a reset. -/
theorem test_witness_ResultIsWrittenByCompletionsAndRefusals :
    (nextState (step (accepted .gcd 1 12 18 0))).any (fun t => t.result != [0#32]) = true ∧
      (nextState (step (scheduled [wr 0x008#12 0#32] { idle 1 0 0 0 with result := [9#32] }))).any
        (fun t => t.result != [9#32]) = true ∧
      (nextState (step (scheduled [.reset] { idle 1 0 0 0 with result := [9#32] }))).any
        (fun t => t.result != [9#32]) = true := by decide

theorem test_witness_OperandsAreHeldWhileBusy :
    (nextState (step (scheduled [wr 0x200#12 4#32] (accepted .gcd 1 12 18 0)))).isSome = true ∧
      (nextState (step (scheduled [wr 0x200#12 4#32] (idle 1 12 18 0)))).any
        (fun t => t.opA != [12#32]) = true ∧
      (nextState (step (scheduled [wr 0x400#12 4#32] (idle 1 12 18 0)))).any
        (fun t => t.opB != [18#32]) = true ∧
      (nextState (step (scheduled [wr 0x600#12 4#32] (idle 1 12 18 0)))).any
        (fun t => t.opC != [0#32]) = true := by decide

theorem test_witness_ControlRegistersChangeByTheHostAlone :
    (nextState (step (scheduled [wr 0x004#12 1#32] (idle 1 0 0 0)))).any (fun t => t.ctrl.ie) = true ∧
      (nextState (step (scheduled [wr 0x200#12 4#32] (accepted .gcd 1 12 18 0)))).any
        (·.status.wign) = true ∧
      (nextState (step (scheduled [wr 0x008#12 0#32] (accepted .gcd 1 12 18 0)))).any
        (·.status.wign) = true ∧
      (nextState (step (scheduled [wr 0x00C#12 8#32]
        (transact (.write .word 0x200#12 4#32) (accepted .gcd 1 12 18 0))))).any
        (fun t => !t.status.wign) = true := by decide

theorem test_witness_ResetSatisfiesTheInvariant :
    wellFormedLimbs 1 = true ∧ wellFormedLimbs 128 = true := by decide

/-- A state inside an operation, in stage LOOP, meets the invariant and makes a step. -/
theorem test_witness_EveryStepKeepsTheInvariant :
    ∃ s t : State, s.Inv ∧ s.status.busy = true ∧ s.eng.stage = .loop ∧ step s = .next t := by
  refine ⟨{ accepted .modinv 1 3 10 0 with
    eng := { stage := .loop, wa := 3, wb := 10, wc := 0, wv := 0, wi := 0, wx0 := 0, wx1 := 1,
             wn0 := 10 } }, _, ⟨by decide, by decide, by decide⟩, by decide, by decide, rfl⟩

theorem test_witness_EveryStepAnswersANextState :
    (accepted .modexp 2 5 7 77).RegsWf ∧ (accepted .modexp 2 5 7 77).StatusWf ∧
      (accepted .modexp 2 5 7 77).operationWf = true := by decide

theorem test_witness_EveryInterleavingFromResetIsSafe :
    wellFormedLimbs 1 = true ∧
      (nextState (Sys2Proof.core.run 5 (scheduled
        [wr 0x200#12 12#32, wr 0x400#12 18#32, wr 0x008#12 2#32, .engine, .reset]
        (State.resetOf 1)))).isSome = true := by decide

theorem test_witness_EveryAcceptedOperationCompletes :
    (accepted .isprime 1 97 0 0).Inv ∧ (accepted .isprime 1 97 0 0).status.busy = true :=
  ⟨⟨by decide, by decide, by decide⟩, by decide⟩

/-- Two states that differ in RESULT, CTRL and OP_C; GCD reads none of them. -/
theorem test_witness_OutcomeDependsOnTheOperandsAlone :
    (idle 1 12 18 0).limbs = (idle 1 12 18 5).limbs ∧
      (idle 1 12 18 0).dataReg .opA = (idle 1 12 18 5).dataReg .opA ∧
      (idle 1 12 18 0).dataReg .opB = (idle 1 12 18 5).dataReg .opB ∧
      readsRegister .gcd .opC = false ∧ readsRegister .gcd .result = false ∧
      (nextState (exec .gcd (accepted .gcd 1 12 18 0))).isSome = true ∧
      (nextState (exec .gcd (accepted .gcd 1 12 18 5))).isSome = true := by decide

theorem test_witness_TransactionsDoNotDisturbTheOperation :
    (accepted .gcd 1 12 18 0).status.busy = true ∧
      (nextState (exec .gcd (accepted .gcd 1 12 18 0))).isSome = true := by decide

/-- Two states with different unused working registers, one operation in flight in both. -/
theorem test_witness_HiddenStateIsUnobservable :
    ∃ s t : State, s.Indistinguishable t ∧ s ≠ t ∧ s.status.busy = true := by
  refine ⟨accepted .gcd 1 12 18 0, { accepted .gcd 1 12 18 0 with
    eng := { (accepted .gcd 1 12 18 0).eng with wv := 9 } }, ⟨by decide, ?_⟩, by decide, by decide⟩
  intro _ i _
  rfl

theorem test_witness_PseudoCommandsReturnTheOutcome :
    (idle 1 0 0 0).RegsWf ∧ (idle 1 0 0 0).status.busy = false ∧ repW (idle 1 0 0 0).limbs 77 = true ∧
      repW (idle 1 0 0 0).limbs (-2147483648) = true := by decide

theorem test_witness_PublicExponentSearch :
    (idle 1 0 0 0).RegsWf ∧ (idle 1 0 0 0).status.busy = false ∧ (1 : Int) ≤ 2147483646 ∧
      repW (idle 1 0 0 0).limbs (2147483646 + 1) = true ∧ (2147483646 : Int) ≤ (2147483646 : Nat) ∧
      (0 : Int) ≤ 0 := by decide

/-- The bound is at its least, `(2 - 1) * (3 - 1) = 2`. -/
theorem test_witness_KeypairGuarantees :
    (idle 1 0 0 0).RegsWf ∧ (idle 1 0 0 0).status.busy = false ∧ (2 : Int) ≠ 3 ∧
      repW (idle 1 0 0 0).limbs (2 * 3) = true ∧ ((2 : Int) - 1) * (3 - 1) ≤ (2 : Nat) ∧
      keys (genkey 2 (.integer 2) (.integer 3) (idle 1 0 0 0)) = .ok (⟨6, 3⟩, ⟨6, 1⟩) := by
  decide +kernel

theorem test_witness_KeypairGuarantees_primes :
    Nat.Prime (2 : Int).toNat ∧ Nat.Prime (3 : Int).toNat :=
  ⟨(show Nat.Prime 2 by norm_num), (show Nat.Prime 3 by norm_num)⟩

theorem test_witness_KeypairErrorsInOrder :
    (idle 1 0 0 0).RegsWf ∧ (idle 1 0 0 0).status.busy = false ∧ repW 1 4 = true ∧ repW 1 7 = true ∧
      ¬ (Nat.Prime (4 : Int).toNat ∧ Nat.Prime (7 : Int).toNat) ∧ Nat.Prime (7 : Int).toNat := by
  refine ⟨by decide, by decide, by decide, by decide, fun h => ?_, ?_⟩
  · exact absurd (show Nat.Prime 4 from h.1) (by norm_num)
  · exact (show Nat.Prime 7 by norm_num)

theorem test_witness_EncryptThenDecryptReturnsTheMessage :
    (idle 1 0 0 0).RegsWf ∧ (idle 1 0 0 0).status.busy = false ∧ repW (idle 1 0 0 0).limbs (2 * 3) = true ∧
      keys (genkey 2 (.integer 2) (.integer 3) (idle 1 0 0 0)) = .ok (⟨6, 3⟩, ⟨6, 1⟩) ∧
      (0 : Int) ≤ 5 ∧ (5 : Int) < 2 * 3 := by decide +kernel

end Sys2Proof.Tests
end

/-! # Integers of the data registers and floored division (R5, R6) -/

namespace Sys2Proof.Machine

/-! ## Two's complement: register contents and the integers they denote -/

/-- The sign weight is a multiple of `2^W`: modulo it, the signed value is the unsigned one (R47). -/
theorem sintW_emod (r : List Limb) : sintW r % 2 ^ (32 * r.length) = uintW r := by
  have hlt : (uintW r : Int) < 2 ^ (32 * r.length) := by exact_mod_cast uintW_lt r
  have hmod : (uintW r : Int) % 2 ^ (32 * r.length) = uintW r :=
    Int.emod_eq_of_lt (Int.natCast_nonneg _) hlt
  unfold sintW
  split
  · rw [Int.sub_emod_right, hmod]
  · rw [sub_zero, hmod]

/-- Limbs are digits in base `2^32`: registers of one width with the same unsigned value are equal. -/
theorem uintW_injective {r r' : List Limb} (hlen : r.length = r'.length)
    (h : uintW r = uintW r') : r = r' := by
  induction r generalizing r' with
  | nil => exact (List.length_eq_zero_iff.1 hlen.symm).symm
  | cons x xs ih =>
    cases r' with
    | nil => simp at hlen
    | cons y ys =>
      have hx := x.isLt
      have hy := y.isLt
      simp only [uintW] at h
      have hlow : x = y := BitVec.eq_of_toNat_eq (by omega)
      have hhigh : xs = ys := ih (by simpa using hlen) (by omega)
      rw [hlow, hhigh]

/-- Encoding the integer a register denotes gives its contents back (R5). -/
theorem encW_sintW (r : List Limb) : encW r.length (sintW r) = r := by
  refine uintW_injective (encW_length _ _) ?_
  have h : (uintW (encW r.length (sintW r)) : Int) = uintW r := by rw [uintW_encW, sintW_emod]
  exact_mod_cast h

/-- What a register denotes is representable: the unsigned value is below `2^W`, and `2^W` is taken off
exactly in its upper half (R5). -/
theorem repW_sintW {r : List Limb} (hr : r ≠ []) : repW r.length (sintW r) = true := by
  have hpos : 0 < r.length := List.length_pos_iff.2 hr
  have hlt : (uintW r : Int) < 2 ^ (32 * r.length) := by exact_mod_cast uintW_lt r
  have hhalf : (2 : Int) ^ (32 * r.length) = 2 * 2 ^ (32 * r.length - 1) := by
    rw [← pow_succ']; congr 1; omega
  have hupper : 2 ^ (32 * r.length - 1) ≤ uintW r ↔
      (2 : Int) ^ (32 * r.length - 1) ≤ uintW r := by exact_mod_cast Iff.rfl
  rw [sintW_eq r hr]
  simp only [repW, Bool.and_eq_true, decide_eq_true_eq, hupper]
  rw [hhalf] at hlt ⊢
  generalize (2 : Int) ^ (32 * r.length - 1) = p at *
  split <;> omega

/-- Settles O5: `sintW` and `encW` are inverse to each other between the register contents of `l` limbs
and the integers representable in them. -/
theorem encodingOfIntegersIsUnique : Obligations.EncodingOfIntegersIsUnique := by
  refine ⟨fun r hr => repW_sintW hr, fun l v r hl hv hlen => ⟨fun h => ?_, fun h => ?_⟩⟩
  · rw [← h, ← hlen, encW_sintW]
  · rw [h, sintW_encW l v hl hv]

/-! ## The floor of the exact quotient -/

/-- The quotient is unchanged when both signs are (R6). -/
theorem fdiv_neg_neg (a b : Int) : fdiv (-a) (-b) = fdiv a b := Int.neg_fdiv_neg a b

/-- For a positive divisor, the integers below the exact quotient are those up to `fdiv`. -/
theorem intCast_le_div_iff_le_fdiv_of_pos (a q : Int) {b : Int} (hb : 0 < b) :
    (q : ℚ) ≤ (a : ℚ) / (b : ℚ) ↔ q ≤ fdiv a b := by
  have hbq : (0 : ℚ) < b := by exact_mod_cast hb
  have hdiv : fdiv a b = a / b := Int.fdiv_eq_ediv_of_nonneg a hb.le
  rw [le_div_iff₀ hbq, hdiv, Int.le_ediv_iff_mul_le hb]
  exact_mod_cast Iff.rfl

/-- `fdiv` is the floor: an integer is at most the exact quotient iff it is at most `fdiv` (R6).  A
negative divisor is brought to a positive one by changing both signs. -/
theorem intCast_le_div_iff_le_fdiv (a q : Int) {b : Int} (hb : b ≠ 0) :
    (q : ℚ) ≤ (a : ℚ) / (b : ℚ) ↔ q ≤ fdiv a b := by
  rcases lt_or_gt_of_ne hb with hneg | hpos
  · have h := intCast_le_div_iff_le_fdiv_of_pos (-a) q (Int.neg_pos_of_neg hneg)
    rwa [fdiv_neg_neg, Int.cast_neg, Int.cast_neg, neg_div_neg_eq] at h
  · exact intCast_le_div_iff_le_fdiv_of_pos a q hpos

/-- Settles O7: `fdiv` is the floor of the exact quotient, and `fmod` has the range its divisor's sign
gives it. -/
theorem quotientIsTheFloor : Obligations.QuotientIsTheFloor := by
  intro a b hb
  refine ⟨⟨?_, fun q hq => ?_⟩, rfl, fmod_pos_range a, fmod_neg_range a⟩
  · exact (intCast_le_div_iff_le_fdiv a _ hb).2 le_rfl
  · exact (intCast_le_div_iff_le_fdiv a q hb).1 hq

end Sys2Proof.Machine

/-! # The state over every step: invariant, frames, and what does not matter (R20 to R22, R33, R32, R26) -/

namespace Sys2Proof.Machine

/-! ## The invariant holds at reset and every step keeps it (R22, R31) -/

/-- While BUSY = 1 the working registers are those of the command in CMD, and there is one (R22 (e), (f)). -/
theorem State.operationWf_iff (s : State) :
    s.operationWf = true ↔
      (s.status.busy = true → ∃ i, s.commandInFlight = some i ∧ s.engineWf i = true) := by
  unfold State.operationWf
  cases s.status.busy <;> cases s.commandInFlight <;> simp

theorem State.operationWf_of_idle {s : State} (h : s.status.busy = false) : s.operationWf = true := by
  simp [State.operationWf, h]

/-- In a state of the invariant the working registers are those of the command in flight. -/
theorem State.Inv.engineWf {s : State} {i : Instr} (h : s.Inv) (hb : s.status.busy = true)
    (hi : s.commandInFlight = some i) : s.engineWf i = true := by
  obtain ⟨j, hj, hw⟩ := s.operationWf_iff.1 h.operation hb
  rw [hi] at hj
  cases hj
  exact hw

/-- The invariant says nothing of the moves still to come. -/
theorem State.Inv.withSchedule {s : State} (h : s.Inv) (moves : List Event) :
    ({ s with schedule := moves } : State).Inv :=
  ⟨h.regs, h.status, h.operation⟩

theorem resetOf_inv {l : Nat} (hl : wellFormedLimbs l = true) : (State.resetOf l).Inv := by
  refine ⟨⟨hl, ?_⟩, ⟨?_, ?_⟩, State.operationWf_of_idle rfl⟩ <;> simp [State.resetOf, ErrCode.none]

theorem startOperation_inv (i : Instr) {s : State} (h : s.RegsWf) :
    (startOperation (encode i) s).Inv := by
  refine ⟨h, ⟨by simp, by simp, by simp [ErrCode.none], by simp, fun _ => ?_⟩, ?_⟩
  · exact (wellFormedWord_iff _).2 ⟨i, rfl⟩
  · rw [State.operationWf_iff]
    exact fun _ => ⟨i, (commandInFlight_eq_some _ i).2 rfl, startOperation_engineWf _ s i⟩

theorem refuseCommand_inv (w : Word) {s : State} (h : s.RegsWf) (hb : s.status.busy = false) :
    (refuseCommand w s).Inv := by
  obtain ⟨h0, hA, hB, hC, -⟩ := h
  exact ⟨⟨h0, hA, hB, hC, by simp⟩,
    ⟨by simp [hb], by simp [ErrCode.none, ErrCode.illegalCmd], by simp [ErrCode.illegalCmd], by simp,
      by simp [hb]⟩,
    State.operationWf_of_idle (by simp [hb])⟩

/-- A write of CMD keeps the invariant, whether it is ignored, accepted or refused (R130). -/
theorem issueCommand_inv (w : Word) {s : State} (h : s.Inv) : (issueCommand w s).Inv := by
  rcases issueCommand_cases w s with ⟨-, hs⟩ | ⟨-, i, rfl, hs⟩ | ⟨hb, -, hs⟩ <;> rw [hs]
  · exact ⟨h.regs, h.status, h.operation⟩
  · exact startOperation_inv i h.regs
  · exact refuseCommand_inv w h.regs hb

/-- Writing an operand limb while idle keeps the invariant: it holds the operands to nothing but their
width there. -/
theorem writeLimb_inv (r : DataReg) (j : Nat) (d : Limb) {s : State} (h : s.Inv)
    (hb : s.status.busy = false) : (s.writeLimb r j d).Inv := by
  have hregs := writeLimb_regsWf s r j d h.regs
  cases r with
  | opA | opB | opC => exact ⟨hregs, h.status, State.operationWf_of_idle hb⟩
  | result => exact h

/-- Every transaction keeps the invariant. -/
theorem transact_inv (tr : Transaction) {s : State} (h : s.Inv) : (transact tr s).Inv := by
  have withResponse : ∀ {u : State} {r}, u.Inv → ({ u with response := r } : State).Inv :=
    fun hu => ⟨hu.regs, hu.status, hu.operation⟩
  rcases transact_cases tr s with ⟨r, hs⟩ | ⟨d, -, hs⟩ | ⟨w, -, hs⟩ | ⟨d, -, hs⟩ |
    ⟨off, d, r, j, -, -, -, -, hs⟩ <;> rw [hs]
  · exact withResponse h
  · exact ⟨h.regs, h.status, h.operation⟩
  · exact withResponse (issueCommand_inv w h)
  · obtain ⟨hbusy, herr, hcode, hresult, hcmd⟩ := h.status
    exact ⟨h.regs, ⟨fun hb => by simp [hbusy hb], herr, hcode, hresult, hcmd⟩, h.operation⟩
  · cases hb : s.status.busy
    · exact withResponse (writeLimb_inv r j d h hb)
    · exact ⟨h.regs, h.status, h.operation⟩

theorem resetBlock_inv {s : State} (h : s.RegsWf) : (resetBlock s).Inv :=
  (resetOf_inv h.left).withSchedule s.schedule

/-- The end of an operation establishes the invariant (R137, R138). -/
theorem finish_inv {r : OpResult} (hr : r.Legal) {s : State} (h : s.RegsWf) : (r.finish s).Inv := by
  obtain ⟨herr, -, hcode, hresult⟩ := finish_status r hr s
  obtain ⟨hlimbs, -⟩ := finish_fields r s
  rw [← hlimbs] at hresult
  exact ⟨finish_regsWf r s h, ⟨by simp, herr, hcode, hresult, by simp⟩,
    State.operationWf_of_idle (finish_busy r s)⟩

theorem engineMove_inv {s t : State} (h : s.Inv) (ht : engineMove s = .next t) : t.Inv := by
  rcases engineMove_cases ht with ⟨-, rfl⟩ | ⟨hb, i, hi, hstep⟩
  · exact h
  · obtain ⟨u, hu, hwf⟩ := engineStepOf_progress i s (h.engineWf hb hi)
    obtain rfl : u = t := by rw [hu] at hstep; cases hstep; rfl
    rcases engineStepOf_cases hstep with ⟨e, rfl⟩ | ⟨e, r, hr, rfl⟩
    · exact ⟨h.regs, h.status, (State.operationWf_iff _).2 fun hub => ⟨i, hi, hwf hub⟩⟩
    · exact finish_inv hr h.regs

theorem engineRunMove_inv {s t : State} (h : s.Inv) (ht : engineRunMove s = .next t) : t.Inv := by
  rcases engineRunMove_cases ht with ⟨-, rfl⟩ | ⟨hb, i, -, hrun⟩
  · exact h
  · obtain ⟨e, r, hr, rfl⟩ := exec_cases hb hrun
    exact finish_inv hr h.regs

theorem step_inv {s t : State} (h : s.Inv) (ht : step s = .next t) : t.Inv := by
  rcases step_cases ht with ⟨-, hmove⟩ | ⟨tr, rest, -, rfl⟩ | ⟨rest, -, hmove⟩ | ⟨rest, -, hmove⟩ |
    ⟨rest, -, rfl⟩
  · exact engineRunMove_inv h hmove
  · exact transact_inv tr (h.withSchedule rest)
  · exact engineMove_inv (h.withSchedule rest) hmove
  · exact engineRunMove_inv (h.withSchedule rest) hmove
  · exact resetBlock_inv (h.withSchedule rest).regs

/-- Settles O48: a transaction, a move of the engine and a reset each keep the invariant. -/
theorem everyStepKeepsTheInvariant : Obligations.EveryStepKeepsTheInvariant :=
  fun _ _ h ht => step_inv h ht

/-- Settles O47: the registers are zero and nothing is in flight. -/
theorem resetSatisfiesTheInvariant : Obligations.ResetSatisfiesTheInvariant :=
  ⟨resetOf_inv (by decide), fun _ hl => resetOf_inv hl⟩

/-- A move of the engine answers a next state wherever the working registers are those of the command
in flight (R136). -/
theorem engineMove_next {s : State} (h : s.Inv) : ∃ t, engineMove s = .next t := by
  unfold engineMove
  split
  · next hb =>
    obtain ⟨i, hi, hwf⟩ := s.operationWf_iff.1 h.operation hb
    obtain ⟨t, ht, -⟩ := engineStepOf_progress i s hwf
    exact ⟨t, by rw [hi]; exact ht⟩
  · exact ⟨s, rfl⟩

theorem engineRunMove_next {s : State} (h : s.Inv) : ∃ t, engineRunMove s = .next t := by
  unfold engineRunMove
  split
  · next hb =>
    obtain ⟨i, hi, hwf⟩ := s.operationWf_iff.1 h.operation hb
    obtain ⟨t, ht⟩ := exec_next i s hwf
    exact ⟨t, by rw [hi]; exact ht⟩
  · exact ⟨s, rfl⟩

theorem move_next (e : Event) {s : State} (h : s.Inv) : ∃ t, move e s = .next t := by
  cases e with
  | bus tr => exact ⟨_, rfl⟩
  | engine => exact engineMove_next h
  | engineRun => exact engineRunMove_next h
  | reset => exact ⟨_, rfl⟩

/-- From a state of the invariant no agent's move stops the model (R209). -/
theorem step_next {s : State} (h : s.Inv) : ∃ t, step s = .next t := by
  unfold step
  split
  · exact engineRunMove_next h
  · next e rest _ => exact move_next e (h.withSchedule rest)

/-- A run goes on from what its first step answers. -/
theorem core_run_succ {n : Nat} {s t : State} (ht : step s = .next t) :
    Sys2Proof.core.run (n + 1) s = Sys2Proof.core.run n t := by
  have hcore : Sys2Proof.core.step s = .next t := ht
  simp only [Host.Core.run, hcore]

/-- A run of any length from a state of the invariant is safe: the invariant is kept, and it lets no
step stop. -/
theorem run_safe (n : Nat) {s : State} (h : s.Inv) : SafeOutcome (Sys2Proof.core.run n s) := by
  induction n generalizing s with
  | zero => exact ⟨s, rfl, h⟩
  | succ n ih =>
    obtain ⟨t, ht⟩ := step_next h
    rw [core_run_succ ht]
    exact ih (step_inv h ht)

/-- Settles O50: the reset state satisfies the invariant, whatever moves are scheduled in it. -/
theorem everyInterleavingFromResetIsSafe : Obligations.EveryInterleavingFromResetIsSafe :=
  fun _ moves n hl => run_safe n ((resetOf_inv hl).withSchedule moves)

end Sys2Proof.Machine

namespace Sys2Proof.Machine

/-! ## The engine depends on the registers its operation still reads alone (R15, R26, R27, R32)

Two engines that agree on the registers the operation in flight still reads do the same: each step of one
is matched by a step of the other, up to the registers that are dead. -/

/-- The working registers of `i` whose values still matter: in stage INIT the operands the command reads
(R15), in stage LOOP the registers of R27. -/
def Engine.live (i : Instr) (e : Engine) : Engine :=
  match e.stage with
  | .init =>
    match i with
    | .isprime => { Engine.reset with wa := e.wa }
    | .gcd => { Engine.reset with wa := e.wa, wb := e.wb }
    | .modinv => { Engine.reset with wa := e.wa, wb := e.wb }
    | .modexp => { Engine.reset with wa := e.wa, wb := e.wb, wc := e.wc }
  | .loop => e.meaningful i

theorem live_meaningful (i : Instr) (e : Engine) : (e.meaningful i).live i = e.live i := by
  cases i <;> cases hs : e.stage <;> simp [Engine.live, Engine.meaningful, hs]

/-- What holds anything covers what still matters. -/
theorem live_eq_of_meaningful_eq {i : Instr} {e e' : Engine} (h : e.meaningful i = e'.meaningful i) :
    e.live i = e'.live i := by
  rw [← live_meaningful, h, live_meaningful]

theorem live_stage (i : Instr) (e : Engine) : (e.live i).stage = e.stage := by
  cases i <;> cases hs : e.stage <;> simp [Engine.live, Engine.meaningful, Engine.reset, hs]

theorem stage_eq_of_live_eq {i : Instr} {e e' : Engine} (h : e.live i = e'.live i) :
    e.stage = e'.stage := by
  rw [← live_stage i e, h, live_stage]

/-- The operation of `s` and that of `t` end alike: at the same stop, or with the same result, each in its
own state. -/
def EndAlike (s t : State) (o o' : Host.Outcome State Fault Refusal) : Prop :=
  (∃ f, o = .fault f ∧ o' = .fault f) ∨
    ∃ r e e', o = .next (OpResult.finish r { s with eng := e }) ∧
      o' = .next (OpResult.finish r { t with eng := e' })

/-- The operation of `s` and that of `t` go on alike: only the working registers change, and they agree
again. -/
def GoOnAlike (i : Instr) (s t : State) (o o' : Host.Outcome State Fault Refusal) : Prop :=
  ∃ e e', e.meaningful i = e'.meaningful i ∧ o = .next { s with eng := e } ∧
    o' = .next { t with eng := e' }

theorem EndAlike.fault {s t : State} {f : Fault} : EndAlike s t (.fault f) (.fault f) :=
  .inl ⟨f, rfl, rfl⟩

theorem EndAlike.finish {s t : State} (r : OpResult) {e e' : Engine} :
    EndAlike s t (.next (r.finish { s with eng := e })) (.next (r.finish { t with eng := e' })) :=
  .inr ⟨r, e, e', rfl, rfl⟩

theorem isprimeStep_alike {s t : State} (h : s.eng.live .isprime = t.eng.live .isprime) :
    EndAlike s t (isprimeStep s) (isprimeStep t) ∨
      GoOnAlike .isprime s t (isprimeStep s) (isprimeStep t) := by
  have hstage := stage_eq_of_live_eq h
  cases hs : s.eng.stage with
  | init =>
    rw [hs] at hstage
    have ha : s.eng.wa = t.eng.wa := by simpa [Engine.live, hs, ← hstage, Engine.reset] using h
    simp only [isprimeStep, hs, ← hstage, ← ha]
    split
    · exact .inl (.finish (.done 0))
    · exact .inr ⟨_, _, by simp [Engine.meaningful, ha], rfl, rfl⟩
  | loop =>
    rw [hs] at hstage
    obtain ⟨ha, hi⟩ : s.eng.wa = t.eng.wa ∧ s.eng.wi = t.eng.wi := by
      simpa [Engine.live, Engine.meaningful, hs, ← hstage] using h
    simp only [isprimeStep, hs, ← hstage, ← ha, ← hi]
    split
    · exact .inl (.finish (.done 1) (e := s.eng) (e' := t.eng))
    · split
      · exact .inl .fault
      · split
        · exact .inl (.finish (.done 0) (e := s.eng) (e' := t.eng))
        · exact .inr ⟨_, _, by simp [Engine.meaningful, ha], rfl, rfl⟩

theorem gcdStep_alike {s t : State} (h : s.eng.live .gcd = t.eng.live .gcd) :
    EndAlike s t (gcdStep s) (gcdStep t) ∨ GoOnAlike .gcd s t (gcdStep s) (gcdStep t) := by
  have hstage := stage_eq_of_live_eq h
  cases hs : s.eng.stage with
  | init =>
    rw [hs] at hstage
    obtain ⟨ha, hb⟩ : s.eng.wa = t.eng.wa ∧ s.eng.wb = t.eng.wb := by
      simpa [Engine.live, hs, ← hstage, Engine.reset] using h
    simp only [gcdStep, hs, ← hstage]
    exact .inr ⟨_, _, by simp [Engine.meaningful, ha, hb], rfl, rfl⟩
  | loop =>
    rw [hs] at hstage
    obtain ⟨ha, hb⟩ : s.eng.wa = t.eng.wa ∧ s.eng.wb = t.eng.wb := by
      simpa [Engine.live, Engine.meaningful, hs, ← hstage] using h
    simp only [gcdStep, hs, ← hstage, ← ha, ← hb]
    split
    · exact .inl (.finish (.done _) (e := s.eng) (e' := t.eng))
    · exact .inr ⟨_, _, by simp [Engine.meaningful], rfl, rfl⟩

theorem modinvStep_alike {s t : State} (h : s.eng.live .modinv = t.eng.live .modinv) :
    EndAlike s t (modinvStep s) (modinvStep t) ∨
      GoOnAlike .modinv s t (modinvStep s) (modinvStep t) := by
  have hstage := stage_eq_of_live_eq h
  cases hs : s.eng.stage with
  | init =>
    rw [hs] at hstage
    obtain ⟨ha, hb⟩ : s.eng.wa = t.eng.wa ∧ s.eng.wb = t.eng.wb := by
      simpa [Engine.live, hs, ← hstage, Engine.reset] using h
    simp only [modinvStep, hs, ← hstage, ← hb]
    split
    · exact .inl (.finish (.done 0))
    · exact .inr ⟨_, _, by simp [Engine.meaningful, ha, hb], rfl, rfl⟩
  | loop =>
    rw [hs] at hstage
    obtain ⟨ha, hb, hx0, hx1, hn0⟩ : s.eng.wa = t.eng.wa ∧ s.eng.wb = t.eng.wb ∧ s.eng.wx0 = t.eng.wx0 ∧
        s.eng.wx1 = t.eng.wx1 ∧ s.eng.wn0 = t.eng.wn0 := by
      simpa [Engine.live, Engine.meaningful, hs, ← hstage] using h
    simp only [modinvStep, hs, ← hstage, ← ha, ← hb, ← hx0, ← hx1, ← hn0]
    split
    · split
      · exact .inl (.finish (.fault _) (e := s.eng) (e' := t.eng))
      · exact .inr ⟨_, _, by simp [Engine.meaningful, hn0], rfl, rfl⟩
    · split
      · exact .inl (.finish (.done _) (e := s.eng) (e' := t.eng))
      · exact .inl (.finish (.done _) (e := s.eng) (e' := t.eng))

theorem modexpStep_alike {s t : State} (h : s.eng.live .modexp = t.eng.live .modexp) :
    EndAlike s t (modexpStep s) (modexpStep t) ∨
      GoOnAlike .modexp s t (modexpStep s) (modexpStep t) := by
  have hstage := stage_eq_of_live_eq h
  cases hs : s.eng.stage with
  | init =>
    rw [hs] at hstage
    obtain ⟨ha, hb, hc⟩ : s.eng.wa = t.eng.wa ∧ s.eng.wb = t.eng.wb ∧ s.eng.wc = t.eng.wc := by
      simpa [Engine.live, hs, ← hstage, Engine.reset] using h
    simp only [modexpStep, hs, ← hstage, ← ha, ← hc]
    split
    · exact .inl (.finish (.fault _))
    · exact .inr ⟨_, _, by simp [Engine.meaningful, hb, hc], rfl, rfl⟩
  | loop =>
    rw [hs] at hstage
    obtain ⟨ha, hb, hc, hv⟩ : s.eng.wa = t.eng.wa ∧ s.eng.wb = t.eng.wb ∧
        s.eng.wc = t.eng.wc ∧ s.eng.wv = t.eng.wv := by
      simpa [Engine.live, Engine.meaningful, hs, ← hstage] using h
    simp only [modexpStep, hs, ← hstage, ← ha, ← hb, ← hc, ← hv]
    split
    · split
      · exact .inl .fault
      · exact .inr ⟨_, _, by simp [Engine.meaningful, hc], rfl, rfl⟩
    · exact .inl (.finish (.done _) (e := s.eng) (e' := t.eng))

/-- One engine step reads the live working registers and nothing else of the state (R27, R32). -/
theorem engineStepOf_alike {i : Instr} {s t : State} (h : s.eng.live i = t.eng.live i) :
    EndAlike s t (engineStepOf i s) (engineStepOf i t) ∨
      GoOnAlike i s t (engineStepOf i s) (engineStepOf i t) := by
  cases i with
  | isprime => exact isprimeStep_alike h
  | gcd => exact gcdStep_alike h
  | modinv => exact modinvStep_alike h
  | modexp => exact modexpStep_alike h

/-- Two runs from engines that agree end alike, whatever bounds they carry, unless a bound is used up. -/
theorem runToEnd_endAlike {i : Instr} {n m : Nat} {s t : State} (h : s.eng.live i = t.eng.live i)
    (hs : s.status.busy = true) (ht : t.status.busy = true)
    (hn : runToEnd (engineStepOf i) n s ≠ .fault .engineNotFinished)
    (hm : runToEnd (engineStepOf i) m t ≠ .fault .engineNotFinished) :
    EndAlike s t (runToEnd (engineStepOf i) n s) (runToEnd (engineStepOf i) m t) := by
  induction n generalizing m s t with
  | zero => exact absurd rfl hn
  | succ n ih =>
    cases m with
    | zero => exact absurd rfl hm
    | succ m =>
      simp only [runToEnd] at hn hm ⊢
      rcases engineStepOf_alike h with (⟨f, hf, hf'⟩ | ⟨r, e, e', hr, hr'⟩) | ⟨e, e', he, hg, hg'⟩
      · rw [hf, hf']
        exact .fault
      · simp only [hr, hr', finish_busy]
        exact .finish r
      · simp only [hg, hg', hs, ht, if_true] at hn hm ⊢
        exact ih (s := { s with eng := e }) (t := { t with eng := e' })
          (live_eq_of_meaningful_eq he) hs ht hn hm

/-- The rest of an operation depends on the live working registers alone (R15, R32). -/
theorem exec_endAlike {i : Instr} {s t : State} (h : s.eng.live i = t.eng.live i)
    (hs : s.status.busy = true) (ht : t.status.busy = true) : EndAlike s t (exec i s) (exec i t) := by
  have hn := exec_ne_unfinished i s
  have hm := exec_ne_unfinished i t
  simp only [exec_eq, runOperation, hs, ht, if_true] at hn hm ⊢
  exact runToEnd_endAlike h hs ht hn hm

end Sys2Proof.Machine

namespace Sys2Proof.Machine

/-! ## What a transaction leaves alone (R43, R48, R130, R139) -/

section
variable (r : DataReg) (j : Nat) (d w : Word) (s : State)

@[simp] theorem writeLimb_limbs : (s.writeLimb r j d).limbs = s.limbs := by cases r <;> rfl
@[simp] theorem writeLimb_result : (s.writeLimb r j d).result = s.result := by cases r <;> rfl
@[simp] theorem writeLimb_ctrl : (s.writeLimb r j d).ctrl = s.ctrl := by cases r <;> rfl
@[simp] theorem writeLimb_status : (s.writeLimb r j d).status = s.status := by cases r <;> rfl

/-- Whether ignored, accepted or refused, a write of CMD leaves CAP, the operands and CTRL. -/
theorem issueCommand_frame :
    (issueCommand w s).limbs = s.limbs ∧ (issueCommand w s).opA = s.opA ∧
      (issueCommand w s).opB = s.opB ∧ (issueCommand w s).opC = s.opC ∧
      (issueCommand w s).ctrl = s.ctrl := by
  rcases issueCommand_cases w s with ⟨-, h⟩ | ⟨-, i, -, h⟩ | ⟨-, -, h⟩ <;> simp [h]

theorem transact_write_ctrl :
    transact (.write .word 0x004#12 d) s =
      { s with ctrl := Ctrl.ofWord d, response := some (.write .okay) } := rfl

theorem transact_write_cmd :
    transact (.write .word 0x008#12 w) s =
      { issueCommand w s with response := some (.write .okay) } := rfl

theorem transact_write_status :
    transact (.write .word 0x00C#12 d) s =
      { s with status := s.status.writeOneToClear d, response := some (.write .okay) } := rfl

end

@[simp] theorem transact_limbs (tr : Transaction) (s : State) : (transact tr s).limbs = s.limbs := by
  rcases transact_cases tr s with ⟨r, hs⟩ | ⟨d, -, hs⟩ | ⟨w, -, hs⟩ | ⟨d, -, hs⟩ |
    ⟨off, d, r, j, -, -, -, -, hs⟩ <;> rw [hs]
  · simp [issueCommand_frame]
  · cases s.status.busy <;> simp

/-! ## Transactions while an operation is in flight, and the one that starts it (R51, R130) -/

/-- While BUSY = 1 a transaction reaches CTRL, DONE, WIGN and the port's answer only (R51, R139). -/
theorem transact_of_busy (tr : Transaction) {s : State} (hb : s.status.busy = true) :
    ∃ c d w r, transact tr s =
      { s with ctrl := c, status := { s.status with done := d, wign := w }, response := r } := by
  rcases transact_cases tr s with ⟨r, h⟩ | ⟨d, -, h⟩ | ⟨w, -, h⟩ | ⟨d, -, h⟩ |
    ⟨off, d, r, j, -, -, -, -, h⟩ <;> rw [h]
  · exact ⟨_, _, _, _, rfl⟩
  · exact ⟨_, _, _, _, rfl⟩
  · rw [issueCommand_busy w s hb]
    exact ⟨_, _, _, _, rfl⟩
  · exact ⟨_, _, _, _, rfl⟩
  · rw [if_pos hb]
    exact ⟨_, _, _, _, rfl⟩

/-- While BUSY = 1 a transaction leaves BUSY, the working registers, the operands and CMD (R22 (f),
R51). -/
theorem transact_frame_of_busy (tr : Transaction) {s : State} (hb : s.status.busy = true) :
    (transact tr s).status.busy = true ∧ (transact tr s).eng = s.eng ∧
      (transact tr s).opA = s.opA ∧ (transact tr s).opB = s.opB ∧ (transact tr s).opC = s.opC ∧
      (transact tr s).cmd = s.cmd := by
  obtain ⟨c, d, w, r, h⟩ := transact_of_busy tr hb
  rw [h]
  exact ⟨hb, rfl, rfl, rfl, rfl, rfl⟩

/-- A write of a command's word to CMD while idle is its acceptance (R133). -/
theorem transact_encode_of_idle (i : Instr) {s : State} (hb : s.status.busy = false) :
    transact (.write .word 0x008#12 (encode i)) s =
      { startOperation (encode i) s with response := some (.write .okay) } := by
  have hissue : issueCommand (encode i) s = startOperation (encode i) s := by
    rw [issueCommand_idle _ s hb, if_pos ((wellFormedWord_iff _).2 ⟨i, rfl⟩)]
  rw [transact_write_cmd, hissue]

/-- After a transaction BUSY is set only where it was before, or by an acceptance (R20). -/
theorem busy_or_accepted_of_transact_busy {tr : Transaction} {s : State}
    (h : (transact tr s).status.busy = true) :
    s.status.busy = true ∨
      s.status.busy = false ∧ ∃ i, tr = .write .word 0x008#12 (encode i) := by
  cases hb : s.status.busy
  · rcases transact_cases tr s with ⟨r, hs⟩ | ⟨d, -, hs⟩ | ⟨w, rfl, hs⟩ | ⟨d, -, hs⟩ |
      ⟨off, d, r, j, -, -, -, -, hs⟩ <;> rw [hs] at h
    · simp [hb] at h
    · simp [hb] at h
    · rcases issueCommand_cases w s with ⟨hb', -⟩ | ⟨-, i, rfl, -⟩ | ⟨-, -, hw⟩
      · simp [hb] at hb'
      · exact .inr ⟨rfl, i, rfl⟩
      · simp [hw, hb] at h
    · simp [hb] at h
    · simp [hb] at h
  · exact .inl rfl

/-! ## The outcome of an operation (R15, R32, R53) -/

/-- What the end of an operation writes in RESULT, ERR and ERRCODE depends on its result and the
number of limbs alone (R137, R138). -/
theorem finish_outcome_eq (r : OpResult) {s t : State} (h : s.limbs = t.limbs) :
    (r.finish s).result = (r.finish t).result ∧
      (r.finish s).status.err = (r.finish t).status.err ∧
      (r.finish s).status.errcode = (r.finish t).status.errcode := by
  cases r with
  | done v =>
    simp only [OpResult.finish, complete, h]
    split <;> simp [h]
  | fault c => simp [OpResult.finish, h]

/-- Operations accepted on the same operands start from engines that agree (R15, R133). -/
theorem live_startOperation_eq {i : Instr} {s s' : State}
    (h : ∀ r, readsRegister i r = true → s.dataReg r = s'.dataReg r) (w : Word) :
    (startOperation w s).eng.live i = (startOperation w s').eng.live i := by
  have hA : s.opA = s'.opA := h .opA (by cases i <;> rfl)
  cases i with
  | isprime => simp [Engine.live, hA]
  | gcd =>
    have hB : s.opB = s'.opB := h .opB rfl
    simp [Engine.live, hA, hB]
  | modinv =>
    have hB : s.opB = s'.opB := h .opB rfl
    simp [Engine.live, hA, hB]
  | modexp =>
    have hB : s.opB = s'.opB := h .opB rfl
    have hC : s.opC = s'.opC := h .opC rfl
    simp [Engine.live, hA, hB, hC]

/-- Settles O52: the operands read make the engines agree at acceptance, so the two runs end alike. -/
theorem outcomeDependsOnTheOperandsAlone : Obligations.OutcomeDependsOnTheOperandsAlone := by
  intro i s s' t t' hlimbs hregs ht ht'
  have hlive := live_startOperation_eq hregs (encode i)
  rcases exec_endAlike hlive rfl rfl with ⟨f, hf, -⟩ | ⟨r, e, e', hr, hr'⟩
  · rw [hf] at ht
    cases ht
  · rw [hr] at ht
    rw [hr'] at ht'
    cases ht
    cases ht'
    exact finish_outcome_eq r hlimbs

/-- Settles O53: a transaction made while busy leaves the engine, so the run after it ends alike; and it
leaves the operands and CMD. -/
theorem transactionsDoNotDisturbTheOperation : Obligations.TransactionsDoNotDisturbTheOperation := by
  intro i s t tr hb ht
  obtain ⟨hbusy, heng, huA, huB, huC, hucmd⟩ := transact_frame_of_busy tr hb
  have hlive : s.eng.live i = (transact tr s).eng.live i := by rw [heng]
  rcases exec_endAlike hlive hb hbusy with ⟨f, hf, -⟩ | ⟨r, e, e', hr, hr'⟩
  · rw [hf] at ht
    cases ht
  · rw [hr] at ht
    cases ht
    obtain ⟨-, hA, hB, hC, -, hcmd, -, -, -, hdone, -⟩ := finish_fields r { s with eng := e }
    obtain ⟨-, hA', hB', hC', -, hcmd', -, -, -, hdone', -⟩ :=
      finish_fields r { transact tr s with eng := e' }
    obtain ⟨hres, herr, hcode⟩ := finish_outcome_eq r (s := { transact tr s with eng := e' })
      (t := { s with eng := e }) (transact_limbs tr s)
    exact ⟨_, hr', hres, herr, hcode, hdone'.trans hdone.symm, (hA'.trans huA).trans hA.symm,
      (hB'.trans huB).trans hB.symm, (hC'.trans huC).trans hC.symm,
      (hcmd'.trans hucmd).trans hcmd.symm⟩

/-! ## The hidden working state (R25, R26, R193) -/

/-- No host can tell two states apart exactly when they differ in the working registers only, and while
busy in none the command in flight uses. -/
theorem indistinguishable_iff (s t : State) :
    s.Indistinguishable t ↔ ∃ e, t = { s with eng := e } ∧
      (s.status.busy = true → ∀ i, s.commandInFlight = some i →
        s.eng.meaningful i = e.meaningful i) := by
  constructor
  · rintro ⟨hhide, heng⟩
    refine ⟨t.eng, ?_, heng⟩
    cases s
    cases t
    simpa [State.hideEngine, eq_comm] using hhide
  · rintro ⟨e, rfl, heng⟩
    exact ⟨rfl, heng⟩

/-- Idle states that differ in the working registers only cannot be told apart (R26). -/
theorem indistinguishable_of_idle {s : State} (hb : s.status.busy = false) (e : Engine) :
    s.Indistinguishable { s with eng := e } :=
  ⟨rfl, fun h => by simp [hb] at h⟩

/-- The end of an operation leaves the working registers and does not look at them. -/
theorem finish_withEng (r : OpResult) (s : State) (e : Engine) :
    r.finish { s with eng := e } = { r.finish s with eng := e } := by
  cases r with
  | done v =>
    simp only [OpResult.finish, complete]
    split <;> rfl
  | fault c => rfl

/-- Whatever the working registers were, the end of an operation leaves nothing of them to see (R137,
R138). -/
theorem finish_indistinguishable (r : OpResult) (s : State) (e₁ e₂ : Engine) :
    (r.finish { s with eng := e₁ }).Indistinguishable (r.finish { s with eng := e₂ }) := by
  rw [finish_withEng r s e₁, finish_withEng r s e₂]
  exact indistinguishable_of_idle (s := { r.finish s with eng := e₁ }) (finish_busy r s) e₂

/-- Operations that end alike, in states that differ in the working registers only, end in outcomes no
host can tell apart. -/
theorem EndAlike.indistinguishable {s : State} {e : Engine}
    {o o' : Host.Outcome State Fault Refusal} (h : EndAlike s { s with eng := e } o o') :
    outcomesIndistinguishable o o' := by
  rcases h with ⟨f, rfl, rfl⟩ | ⟨r, e₁, e₂, rfl, rfl⟩
  · rfl
  · exact finish_indistinguishable r s e₁ e₂

/-- Operations that go on alike, in states that differ in the working registers only, are in states no
host can tell apart. -/
theorem GoOnAlike.indistinguishable {i : Instr} {s : State} {e : Engine}
    {o o' : Host.Outcome State Fault Refusal} (hi : s.commandInFlight = some i)
    (h : GoOnAlike i s { s with eng := e } o o') : outcomesIndistinguishable o o' := by
  obtain ⟨e₁, e₂, he, rfl, rfl⟩ := h
  refine ⟨rfl, fun _ j hj => ?_⟩
  obtain rfl : i = j := Option.some.inj (hi.symm.trans hj)
  exact he

theorem engineMove_indistinguishable {s t : State} (h : s.Indistinguishable t) :
    outcomesIndistinguishable (engineMove s) (engineMove t) := by
  obtain ⟨e, rfl, heng⟩ := (indistinguishable_iff s t).1 h
  have hfly : ({ s with eng := e } : State).commandInFlight = s.commandInFlight := rfl
  unfold engineMove
  rw [hfly]
  cases hb : s.status.busy with
  | false => exact h
  | true =>
    cases hi : s.commandInFlight with
    | none => rfl
    | some i =>
      have hlive := live_eq_of_meaningful_eq (heng hb i hi)
      rcases engineStepOf_alike (s := s) (t := { s with eng := e }) hlive with hend | hgo
      · exact hend.indistinguishable
      · exact hgo.indistinguishable hi

theorem engineRunMove_indistinguishable {s t : State} (h : s.Indistinguishable t) :
    outcomesIndistinguishable (engineRunMove s) (engineRunMove t) := by
  obtain ⟨e, rfl, heng⟩ := (indistinguishable_iff s t).1 h
  have hfly : ({ s with eng := e } : State).commandInFlight = s.commandInFlight := rfl
  unfold engineRunMove
  rw [hfly]
  cases hb : s.status.busy with
  | false => exact h
  | true =>
    cases hi : s.commandInFlight with
    | none => rfl
    | some i =>
      have hlive := live_eq_of_meaningful_eq (heng hb i hi)
      exact (exec_endAlike (s := s) (t := { s with eng := e }) hlive hb hb).indistinguishable

/-- No location of the window shows the working registers (R26). -/
theorem readLoc_hideEngine (s : State) (loc : Loc) : s.hideEngine.readLoc loc = s.readLoc loc := by
  cases loc with
  | limb r j => cases r <;> rfl
  | cap | ctrl | cmd | status => rfl

/-- A write to a location changes the visible state in the same way, whatever the working registers
hold. -/
theorem writeLoc_hideEngine (d : Word) (s : State) (loc : Loc) :
    (s.hideEngine.writeLoc d loc).hideEngine = (s.writeLoc d loc).hideEngine := by
  cases loc with
  | cap | ctrl | status => rfl
  | cmd =>
    have hb : s.hideEngine.status.busy = s.status.busy := rfl
    simp only [State.writeLoc, issueCommand, hb]
    split
    · rfl
    · cases decodeBytes (bytesOfWord d) <;> rfl
  | limb r j =>
    have hb : s.hideEngine.status.busy = s.status.busy := rfl
    simp only [State.writeLoc, hb]
    split
    · rfl
    · cases r <;> rfl

/-- A transaction changes the visible state in the same way, whatever the working registers hold. -/
theorem transact_hideEngine (tr : Transaction) (s : State) :
    (transact tr s.hideEngine).hideEngine = (transact tr s).hideEngine := by
  have hlimbs : s.hideEngine.limbs = s.limbs := rfl
  have withResponse : ∀ {u v : State} {r}, u.hideEngine = v.hideEngine →
      ({ u with response := r } : State).hideEngine = ({ v with response := r } : State).hideEngine :=
    fun {u v r} h => congrArg (fun x : State => { x with response := r }) h
  cases tr with
  | read width off =>
    simp only [transact, busRead, hlimbs]
    split
    · rw [readLoc_hideEngine]
      rfl
    · rfl
  | write width off d =>
    simp only [transact, busWrite, hlimbs]
    split
    · next loc _ =>
      split
      · exact withResponse (writeLoc_hideEngine d s loc)
      · rfl
    · rfl

theorem transact_indistinguishable (tr : Transaction) {s t : State} (h : s.Indistinguishable t) :
    (transact tr s).Indistinguishable (transact tr t) := by
  obtain ⟨e, rfl, heng⟩ := (indistinguishable_iff s t).1 h
  refine ⟨(transact_hideEngine tr s).symm.trans (transact_hideEngine tr { s with eng := e }),
    fun hb i hi => ?_⟩
  rcases busy_or_accepted_of_transact_busy hb with hbusy | ⟨hidle, j, rfl⟩
  · obtain ⟨-, hs, -, -, -, hcmd⟩ := transact_frame_of_busy tr hbusy
    obtain ⟨-, ht, -⟩ := transact_frame_of_busy tr (s := { s with eng := e }) hbusy
    rw [commandInFlight_eq_some, hcmd, ← commandInFlight_eq_some] at hi
    rw [hs, ht]
    exact heng hbusy i hi
  · rw [transact_encode_of_idle j hidle,
      transact_encode_of_idle j (s := { s with eng := e }) hidle]
    rfl

/-- Settles O54: whichever agent moves, the two states stay indistinguishable. -/
theorem hiddenStateIsUnobservable : Obligations.HiddenStateIsUnobservable := by
  intro s t h
  have hsched : ∀ rest : List Event, ({ s with schedule := rest } : State).Indistinguishable
      { t with schedule := rest } := by
    obtain ⟨e, rfl, heng⟩ := (indistinguishable_iff s t).1 h
    exact fun _ => ⟨rfl, heng⟩
  have hs : t.schedule = s.schedule := by
    obtain ⟨e, rfl, -⟩ := (indistinguishable_iff s t).1 h
    rfl
  unfold step
  rw [hs]
  cases s.schedule with
  | nil => exact engineRunMove_indistinguishable h
  | cons e rest =>
    cases e with
    | bus tr => exact transact_indistinguishable tr (hsched rest)
    | engine => exact engineMove_indistinguishable (hsched rest)
    | engineRun => exact engineRunMove_indistinguishable (hsched rest)
    | reset =>
      obtain ⟨e, rfl, -⟩ := (indistinguishable_iff s t).1 h
      exact ⟨rfl, fun _ _ _ => rfl⟩

end Sys2Proof.Machine

namespace Sys2Proof.Machine

/-! ## Frames of the engine (R33, R136) -/

/-- Settles O41: a command run to its end writes what the end of an operation writes. -/
theorem commandFrame : Obligations.CommandFrame := by
  intro i s t hb h
  obtain ⟨e, r, hr, rfl⟩ := exec_cases hb h
  obtain ⟨hl, hA, hB, hC, hctrl, hcmd, hwign, hsched, hresp, hdone, -⟩ :=
    finish_fields r { s with eng := e }
  obtain ⟨herr, hcode, hle, hres⟩ := finish_status r hr { s with eng := e }
  exact ⟨hl, hA, hB, hC, hctrl, hcmd, hwign, hsched, hresp, finish_busy r _, hdone, herr, hcode, hle,
    hres, fun a => windowByte_congr s _ a hl hA hB hC hctrl hcmd⟩

/-- Settles O42: an engine step does nothing, writes the working registers, or ends the operation. -/
theorem engineStepFrame : Obligations.EngineStepFrame := by
  intro s t h
  rcases engineMove_cases h with ⟨-, rfl⟩ | ⟨-, i, -, hstep⟩
  · exact ⟨rfl, rfl, rfl, rfl, rfl, rfl, rfl, rfl, rfl, fun _ => ⟨rfl, rfl⟩⟩
  · rcases engineStepOf_cases hstep with ⟨e, rfl⟩ | ⟨e, r, -, rfl⟩
    · exact ⟨rfl, rfl, rfl, rfl, rfl, rfl, rfl, rfl, rfl, fun _ => ⟨rfl, rfl⟩⟩
    · obtain ⟨hl, hA, hB, hC, hctrl, hcmd, hwign, hsched, hresp, -⟩ :=
        finish_fields r { s with eng := e }
      exact ⟨hl, hA, hB, hC, hctrl, hcmd, hwign, hsched, hresp, fun hb => by simp at hb⟩

/-! ## What a transaction changes, register by register (R11 to R19, R48, R51) -/

/-- A write of CMD sets WIGN exactly where it is ignored (R51). -/
theorem issueCommand_wign (w : Word) (s : State) :
    (issueCommand w s).status.wign = (s.status.wign || s.status.busy) := by
  rcases issueCommand_cases w s with ⟨hb, h⟩ | ⟨hb, i, -, h⟩ | ⟨hb, -, h⟩ <;> simp [h, hb]

/-- RESULT changes in a transaction by the refusal of an illegal word alone (R14, R134). -/
theorem refused_of_transact_result_ne {tr : Transaction} {s : State}
    (h : (transact tr s).result ≠ s.result) :
    s.status.busy = false ∧ (transact tr s).result = zeroLimbs s.limbs ∧
      ∃ w, tr = .write .word 0x008#12 w ∧ wellFormedWord w = false := by
  rcases transact_cases tr s with ⟨r, hs⟩ | ⟨d, -, hs⟩ | ⟨w, rfl, hs⟩ | ⟨d, -, hs⟩ |
    ⟨off, d, r, j, -, -, -, -, hs⟩ <;> rw [hs] at h ⊢
  · exact absurd rfl h
  · exact absurd rfl h
  · rcases issueCommand_cases w s with ⟨-, hw⟩ | ⟨-, i, -, hw⟩ | ⟨hb, hword, hw⟩
    · simp [hw] at h
    · simp [hw] at h
    · exact ⟨hb, by simp [hw], w, rfl, hword⟩
  · exact absurd rfl h
  · refine absurd ?_ h
    cases s.status.busy <;> simp

/-- A limb write that takes effect is to one operand register, and at an offset of its limbs (R41,
R48). -/
theorem written_limb_of_writeLimb_ne {l : Nat} {off : Offset} {r : DataReg} {j : Nat} {d : Limb}
    {s : State} (hloc : locOf l off = some (.limb r j)) :
    ((s.writeLimb r j d).opA ≠ s.opA → 0x200 ≤ off.toNat ∧ off.toNat < 0x200 + 4 * l) ∧
      ((s.writeLimb r j d).opB ≠ s.opB → 0x400 ≤ off.toNat ∧ off.toNat < 0x400 + 4 * l) ∧
      ((s.writeLimb r j d).opC ≠ s.opC → 0x600 ≤ off.toNat ∧ off.toNat < 0x600 + 4 * l) := by
  rcases locOf_eq_some hloc with ⟨h, -⟩ | ⟨h, -⟩ | ⟨h, -⟩ | ⟨h, -⟩ | ⟨_, h, hlo, hhi, -⟩ |
    ⟨_, h, hlo, hhi, -⟩ | ⟨_, h, hlo, hhi, -⟩ | ⟨_, h, hlo, hhi, -⟩ <;> cases h
  · exact ⟨fun _ => ⟨hlo, hhi⟩, absurd rfl, absurd rfl⟩
  · exact ⟨absurd rfl, fun _ => ⟨hlo, hhi⟩, absurd rfl⟩
  · exact ⟨absurd rfl, absurd rfl, fun _ => ⟨hlo, hhi⟩⟩
  · exact ⟨absurd rfl, absurd rfl, absurd rfl⟩

/-- A transaction changes no operand register, or is a limb write while idle (R11 to R13, R48). -/
theorem operands_eq_or_limb_written (tr : Transaction) (s : State) :
    ((transact tr s).opA = s.opA ∧ (transact tr s).opB = s.opB ∧ (transact tr s).opC = s.opC) ∨
      ∃ off d r j, tr = .write .word off d ∧ locOf s.limbs off = some (.limb r j) ∧
        transact tr s = { s.writeLimb r j d with response := some (.write .okay) } := by
  rcases transact_cases tr s with ⟨r, hs⟩ | ⟨d, -, hs⟩ | ⟨w, -, hs⟩ | ⟨d, -, hs⟩ |
    ⟨off, d, r, j, htr, -, hloc, -, hs⟩
  · exact .inl (by simp [hs])
  · exact .inl (by simp [hs])
  · exact .inl (by simp [hs, issueCommand_frame])
  · exact .inl (by simp [hs])
  · cases hb : s.status.busy
    · exact .inr ⟨off, d, r, j, htr, hloc, by rw [hs, hb]; rfl⟩
    · exact .inl (by simp [hs, hb])

/-- An operand register changes in a transaction by a write of one of its own limbs alone. -/
theorem own_limb_of_transact_ne (tr : Transaction) (s : State) :
    ((transact tr s).opA ≠ s.opA → ∃ off d, tr = .write .word off d ∧
        0x200 ≤ off.toNat ∧ off.toNat < 0x200 + 4 * s.limbs) ∧
      ((transact tr s).opB ≠ s.opB → ∃ off d, tr = .write .word off d ∧
        0x400 ≤ off.toNat ∧ off.toNat < 0x400 + 4 * s.limbs) ∧
      ((transact tr s).opC ≠ s.opC → ∃ off d, tr = .write .word off d ∧
        0x600 ≤ off.toNat ∧ off.toNat < 0x600 + 4 * s.limbs) := by
  rcases operands_eq_or_limb_written tr s with ⟨hA, hB, hC⟩ | ⟨off, d, r, j, rfl, hloc, hs⟩
  · exact ⟨absurd hA, absurd hB, absurd hC⟩
  · obtain ⟨hA, hB, hC⟩ := written_limb_of_writeLimb_ne (d := d) (s := s) hloc
    rw [hs]
    exact ⟨fun h => ⟨off, d, rfl, hA h⟩, fun h => ⟨off, d, rfl, hB h⟩, fun h => ⟨off, d, rfl, hC h⟩⟩

theorem ctrl_written_of_transact_ctrl_ne {tr : Transaction} {s : State}
    (h : (transact tr s).ctrl ≠ s.ctrl) : ∃ d, tr = .write .word 0x004#12 d := by
  rcases transact_cases tr s with ⟨r, hs⟩ | ⟨d, rfl, -⟩ | ⟨w, -, hs⟩ | ⟨d, -, hs⟩ |
    ⟨off, d, r, j, -, -, -, -, hs⟩
  · exact absurd (by rw [hs]) h
  · exact ⟨d, rfl⟩
  · exact absurd (by simp [hs, issueCommand_frame]) h
  · exact absurd (by rw [hs]) h
  · refine absurd ?_ h
    rw [hs]
    cases s.status.busy <;> simp

/-- WIGN is cleared in a transaction by a write of STATUS with bit 3 set alone (R19, R139). -/
theorem status_written_of_transact_wign_falls {tr : Transaction} {s : State}
    (hs : s.status.wign = true) (h : (transact tr s).status.wign = false) :
    ∃ d, tr = .write .word 0x00C#12 d ∧ d.getLsbD 3 = true := by
  rcases transact_cases tr s with ⟨r, ht⟩ | ⟨d, -, ht⟩ | ⟨w, -, ht⟩ | ⟨d, rfl, ht⟩ |
    ⟨off, d, r, j, -, -, -, -, ht⟩ <;> rw [ht] at h
  · simp [hs] at h
  · simp [hs] at h
  · simp [issueCommand_wign, hs] at h
  · exact ⟨d, rfl, by simpa [hs] using h⟩
  · cases hb : s.status.busy <;> simp [hb, hs] at h

/-- WIGN is set in a transaction by an ignored write alone (R51). -/
theorem ignored_of_transact_wign_rises {tr : Transaction} {s : State}
    (hs : s.status.wign = false) (h : (transact tr s).status.wign = true) :
    s.status.busy = true ∧ ∃ off d, tr = .write .word off d ∧
      (off = 0x008#12 ∨ ∃ j, j < s.limbs ∧ (off = BitVec.ofNat 12 (0x200 + 4 * j) ∨
        off = BitVec.ofNat 12 (0x400 + 4 * j) ∨ off = BitVec.ofNat 12 (0x600 + 4 * j))) := by
  rcases transact_cases tr s with ⟨r, ht⟩ | ⟨d, -, ht⟩ | ⟨w, rfl, ht⟩ | ⟨d, -, ht⟩ |
    ⟨off, d, r, j, rfl, hal, hloc, hr, ht⟩ <;> rw [ht] at h
  · simp [hs] at h
  · simp [hs] at h
  · exact ⟨by simpa [issueCommand_wign, hs] using h, _, w, rfl, .inl rfl⟩
  · simp [hs] at h
  · cases hb : s.status.busy
    · simp [hb, hs] at h
    · exact ⟨rfl, off, d, rfl, .inr ⟨j, offset_of_operand_limb hloc hal hr⟩⟩

/-! ## What changes what, over every step (R11 to R20)
 -/

/-- Settles O43: of the transactions only an acceptance touches BUSY, and of the engine's moves only the
end of an operation, which sets DONE. -/
theorem busyIsSetByAcceptanceAlone : Obligations.BusyIsSetByAcceptanceAlone := by
  intro s t h
  rcases step_effects h with ⟨tr, rest, hsched, rfl⟩ | ⟨rest, hsched, rfl⟩ | ⟨hsched, rest, heff⟩
  · refine ⟨fun hs ht => ?_, fun hs ht => ?_⟩
    · rcases busy_or_accepted_of_transact_busy ht with hb | ⟨-, i, rfl⟩
      · simp [hs] at hb
      · exact ⟨i, rest, hsched⟩
    · obtain ⟨hbusy, -⟩ := transact_frame_of_busy tr (s := { s with schedule := rest }) hs
      simp [hbusy] at ht
  · exact ⟨fun _ ht => by simp [State.reset, State.resetOf] at ht, fun _ _ => .inl ⟨rest, hsched⟩⟩
  · rcases heff with ⟨hb, rfl⟩ | ⟨hb, ⟨e, rfl⟩ | ⟨e, r, -, rfl⟩⟩
    · exact ⟨fun _ ht => by simp [hb] at ht, fun hs => by simp [hb] at hs⟩
    · exact ⟨fun hs => by simp [hb] at hs, fun _ ht => by simp [hb] at ht⟩
    · obtain ⟨-, -, -, -, -, -, -, -, -, hdone, -⟩ :=
        finish_fields r { s with schedule := rest, eng := e }
      exact ⟨fun _ ht => by simp at ht, fun _ _ => .inr ⟨hsched, hdone⟩⟩

/-- Settles O44: a transaction writes RESULT by refusing a word, the engine by ending an operation. -/
theorem resultIsWrittenByCompletionsAndRefusals :
    Obligations.ResultIsWrittenByCompletionsAndRefusals := by
  intro s t h hne
  rcases step_effects h with ⟨tr, rest, hsched, rfl⟩ | ⟨rest, hsched, rfl⟩ | ⟨hsched, rest, heff⟩
  · obtain ⟨hb, hres, w, rfl, hw⟩ :=
      refused_of_transact_result_ne (s := { s with schedule := rest }) hne
    exact .inr (.inl ⟨hb, hres, w, rest, hsched, hw⟩)
  · exact .inr (.inr ⟨rest, hsched⟩)
  · rcases heff with ⟨-, rfl⟩ | ⟨hb, ⟨e, rfl⟩ | ⟨e, r, -, rfl⟩⟩
    · exact absurd rfl hne
    · exact absurd rfl hne
    · obtain ⟨-, -, -, -, -, -, -, -, -, hdone, -⟩ :=
        finish_fields r { s with schedule := rest, eng := e }
      exact .inl ⟨hb, finish_busy r _, hdone, hsched⟩

/-- A move of the engine leaves the operand registers and CMD, CAP, CTRL and WIGN (R33). -/
theorem engine_effect_frame {s t : State} {rest : List Event}
    (h : s.status.busy = false ∧ t = { s with schedule := rest } ∨
      s.status.busy = true ∧ ((∃ e, t = { s with schedule := rest, eng := e }) ∨
        ∃ e r, OpResult.Legal r ∧ t = r.finish { s with schedule := rest, eng := e })) :
    t.limbs = s.limbs ∧ t.opA = s.opA ∧ t.opB = s.opB ∧ t.opC = s.opC ∧ t.ctrl = s.ctrl ∧
      t.cmd = s.cmd ∧ t.status.wign = s.status.wign := by
  rcases h with ⟨-, rfl⟩ | ⟨-, ⟨e, rfl⟩ | ⟨e, r, -, rfl⟩⟩
  · exact ⟨rfl, rfl, rfl, rfl, rfl, rfl, rfl⟩
  · exact ⟨rfl, rfl, rfl, rfl, rfl, rfl, rfl⟩
  · obtain ⟨hl, hA, hB, hC, hctrl, hcmd, hwign, -⟩ :=
      finish_fields r { s with schedule := rest, eng := e }
    exact ⟨hl, hA, hB, hC, hctrl, hcmd, hwign⟩

/-- Settles O45: the engine leaves these registers, and so does every transaction while busy. -/
theorem operandsAreHeldWhileBusy : Obligations.OperandsAreHeldWhileBusy := by
  intro s t h hnoreset
  rcases step_effects h with ⟨tr, rest, hsched, rfl⟩ | ⟨rest, hsched, -⟩ | ⟨-, rest, heff⟩
  · obtain ⟨hA, hB, hC⟩ := own_limb_of_transact_ne tr { s with schedule := rest }
    refine ⟨fun hb => ?_, fun hne => ?_, fun hne => ?_, fun hne => ?_⟩
    · obtain ⟨-, -, frame⟩ := transact_frame_of_busy tr (s := { s with schedule := rest }) hb
      exact frame
    · obtain ⟨off, d, rfl, hoff⟩ := hA hne
      exact ⟨off, d, rest, hsched, hoff⟩
    · obtain ⟨off, d, rfl, hoff⟩ := hB hne
      exact ⟨off, d, rest, hsched, hoff⟩
    · obtain ⟨off, d, rfl, hoff⟩ := hC hne
      exact ⟨off, d, rest, hsched, hoff⟩
  · exact absurd hsched (hnoreset rest)
  · obtain ⟨-, hA, hB, hC, -, hcmd, -⟩ := engine_effect_frame heff
    exact ⟨fun _ => ⟨hA, hB, hC, hcmd⟩, absurd hA, absurd hB, absurd hC⟩

/-- Settles O46: the engine leaves these registers, and each cause is a transaction of its own. -/
theorem controlRegistersChangeByTheHostAlone : Obligations.ControlRegistersChangeByTheHostAlone := by
  intro s t h
  rcases step_effects h with ⟨tr, rest, hsched, rfl⟩ | ⟨rest, hsched, rfl⟩ | ⟨-, rest, heff⟩
  · refine ⟨transact_limbs tr _, fun hne => ?_, fun hs ht => ?_, fun hs ht => ?_⟩
    · obtain ⟨d, rfl⟩ := ctrl_written_of_transact_ctrl_ne (s := { s with schedule := rest }) hne
      exact .inl ⟨d, rest, hsched⟩
    · obtain ⟨d, rfl, hd⟩ := status_written_of_transact_wign_falls
        (s := { s with schedule := rest }) hs ht
      exact .inl ⟨d, rest, hsched, hd⟩
    · obtain ⟨hb, off, d, rfl, hoff⟩ := ignored_of_transact_wign_rises
        (s := { s with schedule := rest }) hs ht
      exact ⟨hb, off, d, rest, hsched, hoff⟩
  · exact ⟨rfl, fun _ => .inr ⟨rest, hsched⟩, fun _ _ => .inr ⟨rest, hsched⟩,
      fun _ ht => by cases ht⟩
  · obtain ⟨hl, -, -, -, hctrl, -, hwign⟩ := engine_effect_frame heff
    exact ⟨hl, absurd hctrl, fun hs ht => by simp [hwign, hs] at ht,
      fun hs ht => by simp [hwign, hs] at ht⟩

/-! ## The control words and the interrupt (R16 to R19, R29, R49) -/

/-- `L` is at most 128, so it fits CAP's low half (R16). -/
theorem capWord_toNat {l : Nat} (h : l ≤ 128) : (capWord l).toNat = l := by
  have hfits : l < 65536 := by omega
  simp only [capWord, BitVec.toNat_append]
  simpa using hfits

theorem ctrlWord_ie (c : Ctrl) : c.word.getLsbD 0 = c.ie := by
  simp only [Ctrl.word, BitVec.getLsbD_append]
  simp

theorem ctrlWord_reserved (c : Ctrl) : c.word.extractLsb' 1 31 = 0#31 := by
  ext k hk
  simp only [Ctrl.word, BitVec.getElem_extractLsb', BitVec.getLsbD_append]
  simp

section
variable (t : Status)

theorem statusWord_busy : t.word.getLsbD 0 = t.busy := by
  simp only [Status.word, BitVec.getLsbD_append]
  simp

theorem statusWord_done : t.word.getLsbD 1 = t.done := by
  simp only [Status.word, BitVec.getLsbD_append]
  simp

theorem statusWord_err : t.word.getLsbD 2 = t.err := by
  simp only [Status.word, BitVec.getLsbD_append]
  simp

theorem statusWord_wign : t.word.getLsbD 3 = t.wign := by
  simp only [Status.word, BitVec.getLsbD_append]
  simp

theorem statusWord_errcode : t.word.extractLsb' 8 4 = t.errcode := by
  ext k hk
  simp only [Status.word, BitVec.getElem_extractLsb', BitVec.getLsbD_append]
  simp [hk]

theorem statusWord_reserved_middle : t.word.extractLsb' 4 4 = 0#4 := by
  ext k hk
  have hbelow : ¬ 4 ≤ k := by omega
  simp only [Status.word, BitVec.getElem_extractLsb', BitVec.getLsbD_append]
  simp [hbelow]

theorem statusWord_reserved_upper : t.word.extractLsb' 12 20 = 0#20 := by
  ext k hk
  have habove : ¬ 8 + k - 4 < 4 := by omega
  simp only [Status.word, BitVec.getElem_extractLsb', BitVec.getLsbD_append]
  simp [habove]

end

/-- Settles O16: the reads by the register map, the fields by the words' bits. -/
theorem controlWordsHaveTheirFields : Obligations.ControlWordsHaveTheirFields := by
  intro s hl
  exact ⟨rfl, capWord_toNat hl, rfl, ctrlWord_ie _, ctrlWord_reserved _, rfl, rfl,
    statusWord_busy _, statusWord_done _, statusWord_err _, statusWord_wign _,
    statusWord_reserved_middle _, statusWord_errcode _, statusWord_reserved_upper _⟩

/-- Settles O23: `irq` follows the fields that the two writes set. -/
theorem interruptOutput : Obligations.InterruptOutput := by
  refine fun s d => ⟨rfl, rfl, fun hd => ?_, ?_⟩
  · rw [transact_write_status]
    simp [State.irq, hd]
  · rfl

end Sys2Proof.Machine

/-! # The register window: its map, and what each access does (R40 to R52) -/

namespace Sys2Proof.Machine

/-! ## A data register as the sum of its limbs (R47) -/

/-- The recursion of `uintW` is Horner's scheme: unrolled, limb `j` weighs `2^(32j)`. -/
theorem uintW_eq_sum (r : List Limb) :
    (uintW r : Int) = ∑ j ∈ Finset.range r.length, ((r.getD j 0#32).toNat : Int) * 2 ^ (32 * j) := by
  induction r with
  | nil => rfl
  | cons x xs ih =>
    have hshift (j : Nat) : (((x :: xs).getD (j + 1) 0#32).toNat : Int) * 2 ^ (32 * (j + 1)) =
        2 ^ 32 * (((xs.getD j 0#32).toNat : Int) * 2 ^ (32 * j)) := by
      rw [List.getD_cons_succ, Nat.mul_succ, pow_add]
      ring
    rw [List.length_cons, Finset.sum_range_succ', Finset.sum_congr rfl fun j _ => hshift j,
      ← Finset.mul_sum, ← ih]
    simp [uintW, add_comm]

theorem signBit_eq_getLsbD (r : List Limb) :
    signBit r = (r.getD (r.length - 1) 0#32).getLsbD 31 := by
  rw [signBit, BitVec.msb_eq_getLsbD_last, List.getLastD_eq_getLast?, List.getLast?_eq_getElem?,
    List.getD_eq_getElem?_getD]

/-- Settles O4: the unsigned value is the sum of the limbs, and the sign bit is bit 31 of the last. -/
theorem registerDenotesSumOfLimbs : Obligations.RegisterDenotesSumOfLimbs := by
  rintro l r - rfl
  rw [sintW, uintW_eq_sum, signBit_eq_getLsbD, mul_ite, mul_one, mul_zero]

/-! ## The register map (R41) -/

/-- The window offset of limb 0 of a data register (R41). -/
def DataReg.base : DataReg → Nat
  | .opA => 0x200
  | .opB => 0x400
  | .opC => 0x600
  | .result => 0x800

/-- No limb of a legal width lies past the end of the window. -/
theorem limbOffset_toNat (r : DataReg) {j : Nat} (hj : j < 128) :
    (limbOffset r j).toNat = r.base + 4 * j := by
  cases r <;> simp only [limbOffset, DataReg.base, BitVec.toNat_ofNat] <;> omega

theorem limbOffset_aligned (r : DataReg) (j : Nat) : (limbOffset r j).toNat % 4 = 0 := by
  cases r <;> simp only [limbOffset, BitVec.toNat_ofNat] <;> omega

theorem wellFormedLimbs_le {l : Nat} (h : wellFormedLimbs l = true) : l ≤ 128 := by
  simp only [wellFormedLimbs, Bool.and_eq_true, decide_eq_true_eq] at h
  exact h.2

section
variable {l : Nat} (hl : l ≤ 128) {off : Offset} (ha : off.toNat % 4 = 0)
include hl ha

/-- The aligned offset of a limb, both ways: where `l ≤ 128` the four registers do not overlap, so the
branches of the map before the register's own do not take its offsets. -/
theorem locOf_eq_limb_iff (r : DataReg) (j : Nat) :
    locOf l off = some (.limb r j) ↔ j < l ∧ off.toNat = r.base + 4 * j := by
  simp only [locOf, ite_eq_iff, Option.some.injEq, reduceCtorEq, and_false, or_false]
  cases r <;> simp only [Loc.limb.injEq, reduceCtorEq, false_and, and_false, true_and, or_false,
    false_or, DataReg.base] <;> omega

/-- The unmapped aligned offsets: between STATUS and OP_A, and after the last limb of each data
register (R41). -/
theorem locOf_eq_none_iff :
    locOf l off = none ↔
      (0x010 ≤ off.toNat ∧ off.toNat ≤ 0x1FF) ∨
      (0x200 + 4 * l ≤ off.toNat ∧ off.toNat ≤ 0x3FF) ∨
      (0x400 + 4 * l ≤ off.toNat ∧ off.toNat ≤ 0x5FF) ∨
      (0x600 + 4 * l ≤ off.toNat ∧ off.toNat ≤ 0x7FF) ∨
      0x800 + 4 * l ≤ off.toNat := by
  simp only [locOf, ite_eq_iff, reduceCtorEq, and_false, false_or, and_true]
  omega

end

theorem locOf_limbOffset (r : DataReg) {l j : Nat} (hl : l ≤ 128) (hj : j < l) :
    locOf l (limbOffset r j) = some (.limb r j) :=
  (locOf_eq_limb_iff hl (limbOffset_aligned r j) r j).2 ⟨hj, limbOffset_toNat r (by omega)⟩

/-- Settles O8: the control registers by evaluation, the limbs and the gaps by the register map. -/
theorem registerMapOfTheWindow : Obligations.RegisterMapOfTheWindow := by
  intro l h
  have hl := wellFormedLimbs_le h
  refine ⟨rfl, rfl, rfl, rfl, fun j hj => ?_, fun off ha => locOf_eq_none_iff hl ha⟩
  exact ⟨locOf_limbOffset .opA hl hj, locOf_limbOffset .opB hl hj, locOf_limbOffset .opC hl hj,
    locOf_limbOffset .result hl hj⟩

/-! ## What an access does, by the location it reaches (R44 to R46, R50) -/

theorem accessLoc_of_aligned {l : Nat} {off : Offset} (ha : off.toNat % 4 = 0) :
    accessLoc l .word off = locOf l off :=
  if_pos ((performed_iff _ _).2 ⟨rfl, ha⟩)

theorem accessLoc_of_not_performed {l : Nat} {width : Width} {off : Offset}
    (h : width ≠ .word ∨ off.toNat % 4 ≠ 0) : accessLoc l width off = none :=
  if_neg fun hp => by
    obtain ⟨hw, ha⟩ := (performed_iff _ _).1 hp
    exact h.elim (absurd hw) (absurd ha)

section
variable {s : State} {width : Width} {off : Offset} {loc : Loc} (d : Word)

theorem transact_read_of_none (h : accessLoc s.limbs width off = none) :
    transact (.read width off) s = { s with response := some (.read .error 0#32) } := by
  simp only [transact, busRead, h]

theorem transact_write_of_none (h : accessLoc s.limbs width off = none) :
    transact (.write width off d) s = { s with response := some (.write .error) } := by
  simp only [transact, busWrite, h]

theorem transact_read_of_loc (h : accessLoc s.limbs width off = some loc) :
    transact (.read width off) s = { s with response := some (.read .okay (s.readLoc loc)) } := by
  simp only [transact, busRead, h]

theorem transact_write_of_writable (h : accessLoc s.limbs width off = some loc)
    (hw : loc.hostWritable = true) :
    transact (.write width off d) s =
      { s.writeLoc d loc with response := some (.write .okay) } := by
  simp only [transact, busWrite, h, hw, if_true]

theorem transact_write_of_readOnly (h : accessLoc s.limbs width off = some loc)
    (hw : loc.hostWritable = false) :
    transact (.write width off d) s = { s with response := some (.write .error) } := by
  simp [transact, busWrite, h, hw]

end

/-- Settles O9: such an access reaches no location. -/
theorem unperformedAccessesAnswerError : Obligations.UnperformedAccessesAnswerError := by
  intro s width off d h
  have hnone : accessLoc s.limbs width off = none := accessLoc_of_not_performed h
  exact ⟨transact_read_of_none hnone, transact_write_of_none d hnone⟩

/-- Settles O10: an aligned access reaches what the register map names, here nothing. -/
theorem unmappedAccessesAnswerError : Obligations.UnmappedAccessesAnswerError := by
  intro s off d ha h
  have hnone : accessLoc s.limbs .word off = none := (accessLoc_of_aligned ha).trans h
  exact ⟨transact_read_of_none hnone, transact_write_of_none d hnone⟩

/-- A mapped location may be read at any time (R46, R50). -/
theorem transact_read_mapped {s : State} {off : Offset} {loc : Loc} (ha : off.toNat % 4 = 0)
    (h : locOf s.limbs off = some loc) :
    transact (.read .word off) s = { s with response := some (.read .okay (s.readLoc loc)) } :=
  transact_read_of_loc ((accessLoc_of_aligned ha).trans h)

/-- No location shows the port's last answer (R43). -/
@[simp] theorem readLoc_withResponse (s : State) (r : Option BusResponse) (loc : Loc) :
    ({ s with response := r } : State).readLoc loc = s.readLoc loc := by
  cases loc with
  | limb r j => cases r <;> rfl
  | cap | ctrl | cmd | status => rfl

/-- A read writes the port's answer alone (R50). -/
theorem transact_read_eq (width : Width) (off : Offset) (s : State) :
    ∃ r, transact (.read width off) s = { s with response := some r } := by
  cases h : accessLoc s.limbs width off with
  | none => exact ⟨_, transact_read_of_none h⟩
  | some loc => exact ⟨_, transact_read_of_loc h⟩

/-- What a read answers does not depend on the answer before it (R50). -/
theorem transact_read_withResponse (width : Width) (off : Offset) (s : State)
    (r : Option BusResponse) :
    transact (.read width off) { s with response := r } = transact (.read width off) s := by
  simp only [transact, busRead, readLoc_withResponse]

/-- Settles O14: the first read changes the port's answer alone, so the second answers the same. -/
theorem readsHaveNoSideEffects : Obligations.ReadsHaveNoSideEffects := by
  intro s width off
  obtain ⟨r, hread⟩ := transact_read_eq width off s
  refine ⟨⟨r, hread⟩, ?_, fun ha _ => transact_read_mapped ha⟩
  rw [hread, transact_read_withResponse, hread]

/-! ## Limb accesses (R46, R48, R51) -/

theorem accessLoc_limbOffset (r : DataReg) {l j : Nat} (hl : l ≤ 128) (hj : j < l) :
    accessLoc l .word (limbOffset r j) = some (.limb r j) :=
  (accessLoc_of_aligned (limbOffset_aligned r j)).trans (locOf_limbOffset r hl hj)

theorem hostWritable_limb {r : DataReg} (hr : r ≠ .result) (j : Nat) :
    (Loc.limb r j).hostWritable = true := by
  cases r with
  | opA | opB | opC => rfl
  | result => exact absurd rfl hr

section
variable {s : State} (r : DataReg) {j : Nat} (d : Word) (hl : s.limbs ≤ 128) (hj : j < s.limbs)

include hl hj

theorem transact_read_limb :
    transact (.read .word (limbOffset r j)) s =
      { s with response := some (.read .okay (s.readLimb r j)) } :=
  transact_read_of_loc (accessLoc_limbOffset r hl hj)

theorem transact_write_result :
    transact (.write .word (limbOffset .result j) d) s =
      { s with response := some (.write .error) } :=
  transact_write_of_readOnly d (accessLoc_limbOffset .result hl hj) rfl

variable {r} (hr : r ≠ .result)
include hr

theorem transact_write_limb_of_idle (hb : s.status.busy = false) :
    transact (.write .word (limbOffset r j) d) s =
      { s.writeLimb r j d with response := some (.write .okay) } := by
  rw [transact_write_of_writable d (accessLoc_limbOffset r hl hj) (hostWritable_limb hr j)]
  simp [State.writeLoc, hb]

theorem transact_write_limb_of_busy (hb : s.status.busy = true) :
    transact (.write .word (limbOffset r j) d) s =
      { s with status := s.status.ignoredWrite, response := some (.write .okay) } := by
  rw [transact_write_of_writable d (accessLoc_limbOffset r hl hj) (hostWritable_limb hr j)]
  simp [State.writeLoc, hb]

end

/-- Settles O11: CAP and the limbs of RESULT are not writable, and every mapped location is readable. -/
theorem readOnlyRegistersRefuseWrites : Obligations.ReadOnlyRegistersRefuseWrites :=
  fun _ d => ⟨transact_write_of_readOnly d (loc := .cap) rfl rfl,
    fun _ hj hl => transact_write_result d hl hj, fun _ _ => transact_read_mapped⟩

/-- Settles O12: the rules of a limb's read and write, register by register. -/
theorem limbAccesses : Obligations.LimbAccesses := by
  refine fun s j d hl hj => ⟨fun hb => ?_, transact_read_limb .opA hl hj,
    transact_read_limb .opB hl hj, transact_read_limb .opC hl hj, transact_read_limb .result hl hj⟩
  exact ⟨transact_write_limb_of_idle (r := .opA) d hl hj nofun hb,
    transact_write_limb_of_idle (r := .opB) d hl hj nofun hb,
    transact_write_limb_of_idle (r := .opC) d hl hj nofun hb⟩

/-- Settles O15: an ignored write of CMD or of an operand limb sets WIGN alone; CTRL and STATUS are
written whatever BUSY is. -/
theorem writesIgnoredWhileBusy : Obligations.WritesIgnoredWhileBusy := by
  intro s d hb hl
  refine ⟨?_, by rw [transact_write_ctrl]; rfl, by rw [transact_write_status]; rfl⟩
  rintro off (rfl | ⟨j, hj, rfl | rfl | rfl⟩)
  · rw [transact_write_cmd, issueCommand_busy d s hb]
    rfl
  · exact transact_write_limb_of_busy (r := .opA) d hl hj nofun hb
  · exact transact_write_limb_of_busy (r := .opB) d hl hj nofun hb
  · exact transact_write_limb_of_busy (r := .opC) d hl hj nofun hb

/-! ## The bytes of the window (R47, R48) -/

/-- The offset of the word a byte of the window lies in (R47). -/
def wordOffset (a : Offset) : Offset := BitVec.ofNat 12 (4 * (a.toNat / 4))

theorem wordOffset_toNat (a : Offset) : (wordOffset a).toNat = 4 * (a.toNat / 4) := by
  have ha := a.isLt
  rw [wordOffset, BitVec.toNat_ofNat]
  omega

/-- A byte of the window is a byte of the word read at its location. -/
theorem windowByte_eq_map (s : State) (a : Offset) :
    s.windowByte a = (locOf s.limbs (wordOffset a)).map fun loc =>
      (s.readLoc loc).extractLsb' (8 * (a.toNat % 4)) 8 := by
  unfold State.windowByte wordOffset
  cases locOf s.limbs (BitVec.ofNat 12 (4 * (a.toNat / 4))) <;> rfl

/-- No byte of the window shows the port's last answer. -/
@[simp] theorem windowByte_withResponse (s : State) (r : Option BusResponse) (a : Offset) :
    ({ s with response := r } : State).windowByte a = s.windowByte a := by
  simp only [windowByte_eq_map, readLoc_withResponse]

section
variable {s : State} {r : DataReg} {j : Nat} (d : Limb) (hr : r ≠ .result)

theorem dataReg_writeLimb_of_ne {q : DataReg} (hq : q ≠ r) :
    (s.writeLimb r j d).dataReg q = s.dataReg q := by
  cases r <;> cases q <;> simp [State.writeLimb, State.dataReg] at hq ⊢

include hr

theorem dataReg_writeLimb_same : (s.writeLimb r j d).dataReg r = (s.dataReg r).set j d := by
  cases r with
  | opA | opB | opC => rfl
  | result => exact absurd rfl hr

theorem readLimb_writeLimb_same (hj : j < (s.dataReg r).length) :
    (s.writeLimb r j d).readLimb r j = d := by
  simp [State.readLimb, dataReg_writeLimb_same d hr, hj]

/-- Writing a limb leaves every other location as it was: the other registers, the other limbs of its
own, and the control registers (R48). -/
theorem readLoc_writeLimb_of_ne {loc : Loc} (h : loc ≠ .limb r j) :
    (s.writeLimb r j d).readLoc loc = s.readLoc loc := by
  cases loc with
  | cap | ctrl | cmd | status => cases r <;> rfl
  | limb q k =>
    simp only [State.readLoc, State.readLimb]
    by_cases hq : q = r
    · subst hq
      have hk : j ≠ k := fun hk => h (hk ▸ rfl)
      simp [dataReg_writeLimb_same d hr, hk]
    · rw [dataReg_writeLimb_of_ne d hq]

end

/-- The bytes of the window after a limb write: those at the limb's own word offset are the data's, the
others are unchanged. -/
theorem windowByte_writeLimb {s : State} {r : DataReg} {j : Nat} (d : Limb) (a : Offset)
    (hl : s.limbs ≤ 128) (hj : j < s.limbs) (hlen : j < (s.dataReg r).length) (hr : r ≠ .result) :
    (s.writeLimb r j d).windowByte a =
      if 4 * (a.toNat / 4) = r.base + 4 * j then some (d.extractLsb' (8 * (a.toNat % 4)) 8)
      else s.windowByte a := by
  have hloc : locOf s.limbs (wordOffset a) = some (.limb r j) ↔
      4 * (a.toNat / 4) = r.base + 4 * j := by
    rw [locOf_eq_limb_iff hl (by rw [wordOffset_toNat]; omega), wordOffset_toNat]
    exact and_iff_right hj
  rw [windowByte_eq_map, windowByte_eq_map, writeLimb_limbs]
  split
  · next ha =>
    rw [hloc.2 ha, Option.map_some]
    exact congrArg (fun w : Word => some (w.extractLsb' _ 8)) (readLimb_writeLimb_same d hr hlen)
  · next ha =>
    refine Option.map_congr fun loc h => ?_
    rw [readLoc_writeLimb_of_ne d hr fun hne => ha (hloc.1 (hne ▸ h))]

/-- Settles O13: the write sets the limb, and limb `j` of OP_A is the word at `0x200 + 4j`. -/
theorem operandWriteChangesItsFourBytes : Obligations.OperandWriteChangesItsFourBytes := by
  intro s j d a hwf hb hj
  obtain ⟨hlimbs, hA, -⟩ := hwf
  have hl := wellFormedLimbs_le hlimbs
  have hlen : j < (s.dataReg .opA).length := hj.trans_eq hA.symm
  have hword : 4 * (a.toNat / 4) = DataReg.opA.base + 4 * j ↔ a.toNat / 4 = 0x80 + j := by
    simp only [DataReg.base]
    omega
  have hwrite := transact_write_limb_of_idle (r := .opA) d hl hj nofun hb
  have hbyte := windowByte_writeLimb d a hl hj hlen nofun
  rw [limbOffset] at hwrite
  rw [hwrite, windowByte_withResponse, hbyte]
  simp only [hword]

/-! ## Progress (R43, R136, R209) -/

/-- Settles O49: in a state of the invariant a transaction and a reset answer a state by definition, and
the engine's moves find the command in flight with working registers it can go on from. -/
theorem everyStepAnswersANextState : Obligations.EveryStepAnswersANextState :=
  fun _ h => step_next h

end Sys2Proof.Machine

/-! # Command words: the decoder and the encoder agree (R47, R60 to R62, R66) -/

namespace Sys2Proof

/-- Four bytes are the bytes of the word put together from them (R47). -/
theorem bytesOfWord_wordOfBytes (b0 b1 b2 b3 : Byte) :
    bytesOfWord (wordOfBytes b0 b1 b2 b3) = [b0, b1, b2, b3] := by
  have hbyte0 : (wordOfBytes b0 b1 b2 b3).extractLsb' 0 8 = b0 := BitVec.extractLsb'_append_eq_right
  have hbyte1 : (wordOfBytes b0 b1 b2 b3).extractLsb' 8 8 = b1 :=
    (BitVec.extractLsb'_append_eq_of_le (by decide)).trans BitVec.extractLsb'_append_eq_right
  have hbyte2 : (wordOfBytes b0 b1 b2 b3).extractLsb' 16 8 = b2 :=
    (BitVec.extractLsb'_append_eq_of_le (by decide)).trans <|
      (BitVec.extractLsb'_append_eq_of_le (by decide)).trans BitVec.extractLsb'_append_eq_right
  have hbyte3 : (wordOfBytes b0 b1 b2 b3).extractLsb' 24 8 = b3 :=
    (BitVec.extractLsb'_append_eq_of_le (by decide)).trans <|
      (BitVec.extractLsb'_append_eq_of_le (by decide)).trans BitVec.extractLsb'_append_eq_left
  rw [bytesOfWord, hbyte0, hbyte1, hbyte2, hbyte3]

/-- Bytes are either too few for a command word or the bytes of a word and the bytes after it (R62). -/
theorem decodeBytes_truncated_or_eq_word (bs : List Byte) :
    decodeBytes bs = .error .truncated ∨ ∃ w rest, bs = bytesOfWord w ++ rest := by
  match bs with
  | [] | [_] | [_, _] | [_, _, _] => exact .inl rfl
  | b0 :: b1 :: b2 :: b3 :: rest =>
    exact .inr ⟨wordOfBytes b0 b1 b2 b3, rest, by rw [bytesOfWord_wordOfBytes]; rfl⟩

/-- A word and the bytes after it decode to `i` exactly when the word is that of `i`; the bytes after it
are what is left (R61, R62). -/
theorem decodeBytes_word_eq_ok (w : Word) (i : Instr) (after rest : List Byte) :
    decodeBytes (bytesOfWord w ++ after) = .ok (i, rest) ↔ w = encode i ∧ after = rest := by
  rw [decodeBytes_word, ← decodeWord_eq_ok]
  cases decodeWord w <;> simp

/-- Settles O1: too few bytes decode to nothing, and otherwise the bytes start with a word, which is that
of `i` exactly when it decodes to `i`. -/
theorem decodeAndEncodeAgree : Obligations.DecodeAndEncodeAgree := by
  refine fun bs rest i => ⟨fun h => ?_, fun h => ?_⟩
  · rcases decodeBytes_truncated_or_eq_word bs with hshort | ⟨w, after, rfl⟩
    · rw [hshort] at h
      cases h
    · obtain ⟨rfl, rfl⟩ := (decodeBytes_word_eq_ok w i after rest).1 h
      rfl
  · rw [h]
    exact (decodeBytes_word_eq_ok (encode i) i rest rest).2 ⟨rfl, rfl⟩

/-- A word decodes to some command exactly when it is the word of one (R61). -/
theorem exists_decodeWord_eq_ok (w : Word) : (∃ i, decodeWord w = .ok i) ↔ ∃ i, w = encode i := by
  simp only [decodeWord_eq_ok]

/-- The command words by their value (R61). -/
theorem exists_eq_encode_iff_toNat (w : Word) :
    (∃ i, w = encode i) ↔ w.toNat = 1 ∨ w.toNat = 2 ∨ w.toNat = 3 ∨ w.toNat = 4 := by
  constructor
  · rintro ⟨i, rfl⟩
    cases i <;> decide
  · rintro (h | h | h | h)
    · exact ⟨.isprime, BitVec.eq_of_toNat_eq h⟩
    · exact ⟨.gcd, BitVec.eq_of_toNat_eq h⟩
    · exact ⟨.modinv, BitVec.eq_of_toNat_eq h⟩
    · exact ⟨.modexp, BitVec.eq_of_toNat_eq h⟩

/-- Settles O2: the decoder reads the words `encode i` and no other, and these are characterised by their
fields and by their values. -/
theorem legalWordsAreTheOpcodeMap : Obligations.LegalWordsAreTheOpcodeMap := by
  refine ⟨fun w => ?_, fun w => ?_, (decodeWord_eq_ok _ .isprime).2 rfl,
    (decodeWord_eq_ok _ .gcd).2 rfl, (decodeWord_eq_ok _ .modinv).2 rfl,
    (decodeWord_eq_ok _ .modexp).2 rfl⟩
  · rw [exists_decodeWord_eq_ok, ← wellFormedWord_iff]
    simp [wellFormedWord, or_assoc]
  · rw [exists_decodeWord_eq_ok, exists_eq_encode_iff_toNat]

/-- Settles O3: the first four are the bytes `encodeBytes` gives the commands; of the others the decoder
is evaluated, opcode by opcode. -/
theorem writtenOutWordsDecode : Obligations.WrittenOutWordsDecode := by
  have hdecode (i : Instr) : decodeBytes (encodeBytes i) = .ok (i, []) :=
    (decodeAndEncodeAgree _ _ i).2 (List.append_nil _).symm
  exact ⟨hdecode .isprime, hdecode .gcd, hdecode .modinv, hdecode .modexp, rfl, rfl, rfl, rfl⟩

end Sys2Proof

/-! # The engine computes the commands' functions (R80, R81, R90, R91, R100, R101, R115, R116) -/

namespace Sys2Proof.Machine

/-! ## The functions, command by command -/

/-- `Exec_<CMD>` on the integers of OP_A, OP_B and OP_C, of which a command reads those of R15. -/
def commandFunction (i : Instr) (a b c : Int) : Option OpResult :=
  match i with
  | .isprime => isprimeFunction a
  | .gcd => gcdFunction a b
  | .modinv => modinvFunction a b
  | .modexp => modexpFunction a b c

/-- The `while` of `Exec_<CMD>`, on the working registers that hold its variables in stage LOOP (R27). -/
def loopFunction (i : Instr) (bound : Nat) (e : Engine) : Option OpResult :=
  match i with
  | .isprime => isprimeLoop e.wa bound e.wi
  | .gcd => gcdLoop bound e.wa e.wb
  | .modinv => modinvLoop e.wn0 bound e.wa e.wb e.wx0 e.wx1
  | .modexp => modexpLoop e.wc bound e.wv e.wa e.wb

/-! ## Engine steps and runs follow the functions -/

/-- The engine step of stage INIT does what the function does before its `while`: it returns, or enters
the loop with a bound that suffices. -/
theorem engineStepOf_init {i : Instr} {s t : State} (hs : s.eng.stage = .init)
    (h : engineStepOf i s = .next t) :
    (∃ r e, commandFunction i s.eng.wa s.eng.wb s.eng.wc = some r ∧
      t = r.finish { s with eng := e }) ∨
    (∃ n e, t = { s with eng := e } ∧ e.stage = .loop ∧ stepMeasure i t < n ∧
      commandFunction i s.eng.wa s.eng.wb s.eng.wc = loopFunction i n e) := by
  cases i with
  | isprime =>
    simp only [engineStepOf, isprimeStep, hs] at h
    split at h <;> cases h
    · next ha => exact .inl ⟨.done 0, _, if_pos ha, rfl⟩
    · next ha => exact .inr ⟨s.eng.wa.toNat + 1, _, rfl, rfl,
        by simp only [stepMeasure]; omega, if_neg ha⟩
  | gcd =>
    simp only [engineStepOf, gcdStep, hs] at h
    cases h
    exact .inr ⟨s.eng.wb.natAbs + 1, _, rfl, rfl, Nat.lt_succ_self _, rfl⟩
  | modinv =>
    simp only [engineStepOf, modinvStep, hs] at h
    split at h <;> cases h
    · next hb => exact .inl ⟨.done 0, _, if_pos hb, rfl⟩
    · next hb => exact .inr ⟨s.eng.wb.natAbs + 2, _, rfl, rfl,
        Nat.lt_add_of_pos_right two_pos, if_neg hb⟩
  | modexp =>
    simp only [engineStepOf, modexpStep, hs] at h
    split at h <;> cases h
    · next hc => exact .inl ⟨.fault _, _, if_pos hc, rfl⟩
    · next hc => exact .inr ⟨s.eng.wb.toNat + 1, _, rfl, rfl, Nat.lt_succ_self _, if_neg hc⟩

/-- The engine step of stage LOOP is one turn of the `while`: it returns, or goes on with the variables
of the next test. -/
theorem engineStepOf_loop {i : Instr} {s t : State} (hs : s.eng.stage = .loop)
    (h : engineStepOf i s = .next t) :
    (∃ r, (∀ n, loopFunction i (n + 1) s.eng = some r) ∧ t = r.finish s) ∨
    (∃ e, t = { s with eng := e } ∧ e.stage = .loop ∧
      ∀ n, loopFunction i (n + 1) s.eng = loopFunction i n e) := by
  cases i with
  | isprime =>
    simp only [engineStepOf, isprimeStep, hs] at h
    split at h
    · next hend =>
      cases h
      exact .inl ⟨.done 1, fun n => if_neg (not_le.2 hend), rfl⟩
    · next hgo =>
      have hle := not_lt.1 hgo
      split at h
      · cases h
      · split at h <;> cases h
        · next hd => exact .inl ⟨.done 0, fun n => (if_pos hle).trans (if_pos hd), rfl⟩
        · next hd => exact .inr ⟨_, rfl, rfl, fun n => (if_pos hle).trans (if_neg hd)⟩
  | gcd =>
    simp only [engineStepOf, gcdStep, hs] at h
    split at h <;> cases h
    · next hb => exact .inl ⟨.done _, fun n => if_pos hb, rfl⟩
    · next hb => exact .inr ⟨_, rfl, rfl, fun n => if_neg hb⟩
  | modinv =>
    simp only [engineStepOf, modinvStep, hs] at h
    split at h
    · next ha =>
      split at h <;> cases h
      · next hb => exact .inl ⟨.fault _, fun n => (if_pos ha).trans (if_pos hb), rfl⟩
      · next hb => exact .inr ⟨_, rfl, rfl, fun n => (if_pos ha).trans (if_neg hb)⟩
    · next ha =>
      split at h <;> cases h
      · next hx => exact .inl ⟨.done _, fun n => (if_neg ha).trans (if_pos hx), rfl⟩
      · next hx => exact .inl ⟨.done _, fun n => (if_neg ha).trans (if_neg hx), rfl⟩
  | modexp =>
    simp only [engineStepOf, modexpStep, hs] at h
    split at h
    · next hb =>
      split at h <;> cases h
      exact .inr ⟨_, rfl, rfl, fun n => if_pos hb⟩
    · next hb =>
      cases h
      exact .inl ⟨.done _, fun n => if_neg hb, rfl⟩

/-- A run of `n` engine steps in stage LOOP ends as the `while` does within `n` tests. -/
theorem runToEnd_loop {i : Instr} {n : Nat} {s t : State} (hs : s.eng.stage = .loop)
    (hb : s.status.busy = true) (h : runToEnd (engineStepOf i) n s = .next t) :
    ∃ r e, loopFunction i n s.eng = some r ∧ t = r.finish { s with eng := e } := by
  induction n generalizing s with
  | zero => cases h
  | succ n ih =>
    unfold runToEnd at h
    split at h
    · next u hu =>
      rcases engineStepOf_loop hs hu with ⟨r, hr, rfl⟩ | ⟨e, rfl, he, hgo⟩
      · rw [finish_busy] at h
        cases h
        exact ⟨r, s.eng, hr n, rfl⟩
      · rw [if_pos hb] at h
        obtain ⟨r, e', hr, ht⟩ := ih (s := { s with eng := e }) he hb h
        exact ⟨r, e', (hgo n).trans hr, ht⟩
    · cases h
    · cases h

/-- The end of a run does not depend on the bound it carries. -/
theorem runToEnd_next_unique {f : State → Host.Outcome State Fault Refusal} {n m : Nat}
    {s t t' : State} (hn : runToEnd f n s = .next t) (hm : runToEnd f m s = .next t') : t = t' := by
  induction n generalizing m s with
  | zero => cases hn
  | succ n ih =>
    cases m with
    | zero => cases hm
    | succ m =>
      unfold runToEnd at hn hm
      cases hu : f s with
      | next u =>
        simp only [hu] at hn hm
        split at hn
        · next hb => exact ih hn ((if_pos hb).symm.trans hm)
        · next hb => exact Host.Outcome.next.inj (hn.symm.trans ((if_neg hb).symm.trans hm))
      | fault g => simp [hu] at hn
      | refused q => simp [hu] at hn

/-- A command accepted in any state ends as its function does on the operands; only the hidden working
state is left open (R81, R91, R101, R116, R136). -/
theorem exec_startOperation_eq_function (i : Instr) (s : State) :
    ∃ r e, commandFunction i (sintW s.opA) (sintW s.opB) (sintW s.opC) = some r ∧
      exec i (startOperation (encode i) s) =
        .next (r.finish { startOperation (encode i) s with eng := e }) := by
  obtain ⟨u, hu, hwf⟩ := engineStepOf_progress i _ (startOperation_engineWf (encode i) s i)
  obtain ⟨bound, hbound⟩ := Nat.exists_eq_succ_of_ne_zero
    (Nat.ne_zero_of_lt (stepMeasure_lt_bound i (startOperation (encode i) s)))
  have hbusy : (startOperation (encode i) s).status.busy = true := rfl
  have hexec : exec i (startOperation (encode i) s) =
      if u.status.busy then runToEnd (engineStepOf i) bound u else .next u := by
    rw [exec_eq, runOperation, if_pos hbusy, hbound]
    simp only [runToEnd, hu]
  rcases engineStepOf_init rfl hu with ⟨r, e, hr, rfl⟩ | ⟨n, e, rfl, he, hmeasure, hloop⟩
  · exact ⟨r, e, hr, by rw [hexec, finish_busy]; rfl⟩
  · obtain ⟨t, ht⟩ := exec_startOperation_next i s
    obtain ⟨t', ht'⟩ := runToEnd_next (stepMeasure i) (fun a => a.engineWf i = true)
      (engineStepOf_lowers i) (engineStepOf_progress i) (hwf rfl) hmeasure
    have hrun := ht
    rw [hexec, if_pos hbusy] at hrun
    obtain rfl := runToEnd_next_unique hrun ht'
    obtain ⟨r, e', hr, rfl⟩ := runToEnd_loop he rfl ht'
    exact ⟨r, e', hloop.trans hr, ht⟩

/-! ## The results are representable (R173) -/

/-- A result that passes the RANGE guard of its completion in `l` limbs (R137, R173). -/
def OpResult.Fits (l : Nat) : OpResult → Prop
  | .done v => repW l v = true
  | .fault _ => True

theorem repW_iff (l : Nat) (v : Int) :
    repW l v = true ↔ -(2 ^ (32 * l - 1) : Int) ≤ v ∧ v ≤ 2 ^ (32 * l - 1) - 1 := by
  simp [repW]

/-- The representable integers are an interval (R5). -/
theorem repW_of_le_of_le {l : Nat} {a b v : Int} (ha : repW l a = true) (hb : repW l b = true)
    (hav : a ≤ v) (hvb : v ≤ b) : repW l v = true := by
  rw [repW_iff] at ha hb ⊢
  omega

theorem repW_one {l : Nat} (hl : 1 ≤ l) : repW l 1 = true := by
  rw [repW_iff]
  have h : (2 : Int) ^ 1 ≤ 2 ^ (32 * l - 1) := pow_le_pow_right₀ (by norm_num) (by omega)
  omega

theorem repW_zero {l : Nat} (hl : 1 ≤ l) : repW l 0 = true := by
  have h := repW_one hl
  rw [repW_iff] at h ⊢
  omega

section
variable {l : Nat} (hl : 1 ≤ l)
include hl

/-- A floored remainder lies between 0 and the divisor, so it is representable where the divisor is. -/
theorem repW_fmod (a : Int) {b : Int} (hb : repW l b = true) (h0 : b ≠ 0) :
    repW l (fmod a b) = true := by
  rcases lt_or_gt_of_ne h0 with hneg | hpos
  · obtain ⟨hlow, hhigh⟩ := fmod_neg_range a hneg
    exact repW_of_le_of_le hb (repW_zero hl) hlow.le hhigh
  · obtain ⟨hlow, hhigh⟩ := fmod_pos_range a hpos
    exact repW_of_le_of_le (repW_zero hl) hb hlow hhigh.le

theorem isprimeLoop_fits {p : Int} {n : Nat} {d : Int} {r : OpResult}
    (h : isprimeLoop p n d = some r) : r.Fits l := by
  induction n generalizing d with
  | zero => cases h
  | succ n ih =>
    unfold isprimeLoop at h
    split at h
    · split at h
      · cases h
        exact repW_zero hl
      · exact ih h
    · cases h
      exact repW_one hl

/-- The pair of GCD stays representable: its second component becomes a remainder by itself. -/
theorem gcdLoop_fits {n : Nat} {x y : Int} {r : OpResult} (hx : repW l x = true)
    (hy : repW l y = true) (h : gcdLoop n x y = some r) : r.Fits l := by
  induction n generalizing x y with
  | zero => cases h
  | succ n ih =>
    unfold gcdLoop at h
    split at h
    · cases h
      exact hx
    · next h0 => exact ih hy (repW_fmod hl x hy h0) h

/-- The value of MODEXP stays representable: it is kept or becomes a remainder modulo `m`. -/
theorem modexpLoop_fits {m : Int} (hm : repW l m = true) (h0 : m ≠ 0) {n : Nat} {v b e : Int}
    {r : OpResult} (hv : repW l v = true) (h : modexpLoop m n v b e = some r) : r.Fits l := by
  induction n generalizing v b e with
  | zero => cases h
  | succ n ih =>
    unfold modexpLoop at h
    split at h
    · refine ih ?_ h
      unfold modexpMultiply
      split
      · exact repW_fmod hl _ hm h0
      · exact hv
    · cases h
      exact hv

end

/-! ### The cofactors of MODINV -/

/-- What ties the magnitudes `y0`, `y1` of MODINV's cofactors to its running pair `(a, n)`: they combine to
the modulus, so neither exceeds it (R106). -/
structure CofactorsBounded (n0 a n y0 y1 : Int) : Prop where
  a_pos : 0 < a
  n_nonneg : 0 ≤ n
  y0_nonneg : 0 ≤ y0
  y1_nonneg : 0 ≤ y1
  y1_le : y1 ≤ n0
  combine : y1 * n + y0 * a = n0

/-- One iteration of MODINV: the combination of the cofactors is that of the pair before it. -/
theorem CofactorsBounded.next {n0 a n y0 y1 : Int} (h : CofactorsBounded n0 a n y0 y1) (hn : n ≠ 0) :
    CofactorsBounded n0 n (fmod a n) (y1 + fdiv a n * y0) y0 := by
  obtain ⟨ha, hn0, hy0, hy1, -, hcomb⟩ := h
  have hpos : 0 < n := lt_of_le_of_ne hn0 hn.symm
  have hq : 0 ≤ fdiv a n := Int.fdiv_nonneg ha.le hn0
  have hdiv := fdiv_add_fmod a n
  have hle : y0 ≤ y0 * a := le_mul_of_one_le_right hy0 ha
  refine ⟨hpos, (fmod_pos_range a hpos).1, by positivity, hy0, ?_, ?_⟩
  · have : 0 ≤ y1 * n := by positivity
    omega
  · calc y0 * fmod a n + (y1 + fdiv a n * y0) * n
        = y1 * n + y0 * (n * fdiv a n + fmod a n) := by ring
      _ = n0 := by rw [hdiv, hcomb]

/-- The cofactors of MODINV alternate in sign, and their magnitudes are bounded by the modulus; so is its
result (R106, R173). -/
theorem modinvLoop_fits {l : Nat} (hl : 1 ≤ l) {n0 : Int} (hn0 : repW l n0 = true) {k : Nat}
    {a n x0 x1 : Int} {r : OpResult}
    (hinv : CofactorsBounded n0 a n (-x0) x1 ∨ CofactorsBounded n0 a n x0 (-x1))
    (h : modinvLoop n0 k a n x0 x1 = some r) : r.Fits l := by
  induction k generalizing a n x0 x1 with
  | zero => cases h
  | succ k ih =>
    unfold modinvLoop at h
    split at h
    · split at h
      · cases h
        trivial
      · next hn =>
        refine ih ?_ h
        rcases hinv with hinv | hinv
        · right
          convert hinv.next hn using 1
          ring
        · left
          convert hinv.next hn using 1
          ring
    · have hbound : -n0 ≤ x1 ∧ x1 ≤ n0 := by
        rcases hinv with ⟨-, -, -, hnonneg, hle, -⟩ | ⟨-, -, -, hnonneg, hle, -⟩ <;>
          constructor <;> omega
      split at h <;> cases h
      · exact repW_of_le_of_le (repW_zero hl) hn0 (by omega) (by omega)
      · exact repW_of_le_of_le (repW_zero hl) hn0 (by omega) hbound.2

/-- MODINV returns a representable integer for every operand pair, inside its contract or not: with a
negative modulus its loop ends at 0 after at most one iteration (R102, R106). -/
theorem modinvFunction_fits {l : Nat} (hl : 1 ≤ l) {a n : Int} {r : OpResult} (hn : repW l n = true)
    (h : modinvFunction a n = some r) : r.Fits l := by
  unfold modinvFunction at h
  split at h
  · cases h
    exact repW_zero hl
  · by_cases ha : a > 1
    · rcases lt_or_ge 0 n with hpos | hnonpos
      · refine modinvLoop_fits hl hn (.inl ⟨by omega, hpos.le, ?_, ?_, by omega, by ring⟩) h <;> simp
      · rcases hnonpos.eq_or_lt with rfl | hneg
        · simp only [modinvLoop, if_pos ha, if_true] at h
          cases h
          trivial
        · have hend : ¬ n > 1 := by omega
          simp only [modinvLoop, if_pos ha, if_neg hneg.ne, if_neg hend] at h
          cases h
          exact repW_zero hl
    · simp only [modinvLoop, if_neg ha] at h
      cases h
      exact repW_one hl

/-- A command's function on representable operands passes the RANGE guard (R173). -/
theorem commandFunction_fits {l : Nat} (hl : 1 ≤ l) {i : Instr} {a b c : Int} {r : OpResult}
    (ha : repW l a = true) (hb : repW l b = true) (hc : repW l c = true)
    (h : commandFunction i a b c = some r) : r.Fits l := by
  cases i with
  | isprime =>
    simp only [commandFunction, isprimeFunction] at h
    split at h
    · cases h
      exact repW_zero hl
    · exact isprimeLoop_fits hl h
  | gcd => exact gcdLoop_fits hl ha hb h
  | modinv => exact modinvFunction_fits hl hb h
  | modexp =>
    simp only [commandFunction, modexpFunction] at h
    split at h
    · cases h
      trivial
    · next h0 => exact modexpLoop_fits hl hc h0 (repW_one hl) h

end Sys2Proof.Machine

/-! # Host software over an idle block (R68 to R70) -/

namespace Sys2Proof.Machine

/-- A block of `l` limbs a host procedure may be started on: idle, its data registers of that width
(R4, R161). -/
structure State.Ready (l : Nat) (s : State) : Prop where
  regs : s.RegsWf
  idle : s.status.busy = false
  limbs : s.limbs = l

theorem State.ready_iff {l : Nat} {s : State} :
    s.Ready l ↔ s.RegsWf ∧ s.status.busy = false ∧ s.limbs = l :=
  ⟨fun h => ⟨h.regs, h.idle, h.limbs⟩, fun ⟨hregs, hidle, hlimbs⟩ => ⟨hregs, hidle, hlimbs⟩⟩

theorem State.Ready.withResponse {l : Nat} {s : State} (h : s.Ready l) (r : Option BusResponse) :
    ({ s with response := r } : State).Ready l :=
  ⟨h.regs, h.idle, h.limbs⟩

/-- No data register holds the port's last answer (R43). -/
@[simp] theorem dataReg_withResponse (s : State) (x : Option BusResponse) (r : DataReg) :
    ({ s with response := x } : State).dataReg r = s.dataReg r := by
  cases r <;> rfl

theorem wellFormedLimbs_pos {l : Nat} (h : wellFormedLimbs l = true) : 1 ≤ l := by
  simp only [wellFormedLimbs, Bool.and_eq_true, decide_eq_true_eq] at h
  exact h.1

theorem dataReg_length {s : State} (h : s.RegsWf) (r : DataReg) : (s.dataReg r).length = s.limbs := by
  obtain ⟨-, hA, hB, hC, hresult⟩ := h
  cases r with
  | opA => exact hA
  | opB => exact hB
  | opC => exact hC
  | result => exact hresult

/-- What any data register denotes is representable in its width (R5). -/
theorem repW_dataReg {s : State} (h : s.RegsWf) (r : DataReg) :
    repW s.limbs (sintW (s.dataReg r)) = true := by
  have hlen := dataReg_length h r
  have hpos := wellFormedLimbs_pos h.1
  rw [← hlen]
  exact repW_sintW (List.ne_nil_of_length_pos (by omega))

/-! ## LDOP (R69) -/

/-- `WR` of an operand limb on an idle block (R48, R68). -/
theorem hostWrite_limb {l : Nat} {r : DataReg} {j : Nat} (d : Word) {s : State} (h : s.Ready l)
    (hr : r ≠ .result) (hj : j < l) :
    hostWrite (limbOffset r j) d s =
      .ok { s.writeLimb r j d with response := some (.write .okay) } := by
  obtain ⟨hregs, hidle, rfl⟩ := h
  simp only [hostWrite,
    transact_write_limb_of_idle d (wellFormedLimbs_le hregs.1) hj hr hidle, if_true]

/-- Writing the limbs from limb `j` to the last leaves those before `j` and every other register. -/
theorem hostWriteLimbs_ok {l : Nat} {r : DataReg} (hr : r ≠ .result) {ds : List Limb} {j : Nat}
    {s : State} (h : s.Ready l) (hj : j + ds.length = l) :
    ∃ t, hostWriteLimbs r j ds s = .ok t ∧ t.Ready l ∧
      t.dataReg r = (s.dataReg r).take j ++ ds ∧ ∀ q ≠ r, t.dataReg q = s.dataReg q := by
  induction ds generalizing j s with
  | nil =>
    have hlen : (s.dataReg r).length ≤ j := by
      rw [dataReg_length h.regs r, h.limbs]
      exact hj.symm.le
    exact ⟨s, rfl, h, by rw [List.append_nil, List.take_of_length_le hlen], fun _ _ => rfl⟩
  | cons d ds ih =>
    rw [List.length_cons] at hj
    have hjl : j < l := by omega
    have hlen : j < (s.dataReg r).length := by rwa [dataReg_length h.regs r, h.limbs]
    have hwrite := hostWrite_limb d h hr hjl
    have hready : (s.writeLimb r j d).Ready l :=
      ⟨writeLimb_regsWf s r j d h.regs, by rw [writeLimb_status, h.idle],
        by rw [writeLimb_limbs, h.limbs]⟩
    obtain ⟨t, ht, htready, hreg, hframe⟩ :=
      ih (hready.withResponse (some (.write .okay))) (j := j + 1) (by omega)
    refine ⟨t, by simp only [hostWriteLimbs, hwrite, ht], htready, ?_, fun q hq => ?_⟩
    · have htake : ((s.writeLimb r j d).dataReg r).take (j + 1) = (s.dataReg r).take j ++ [d] := by
        rw [dataReg_writeLimb_same d hr, ← List.take_append_getElem (by simpa using hlen),
          List.take_set_of_le le_rfl, List.getElem_set_self]
      rw [hreg, dataReg_withResponse, htake, ← List.append_cons]
    · rw [hframe q hq, dataReg_withResponse, dataReg_writeLimb_of_ne d hq]

/-- `LDOP` of a representable integer: the register denotes it, and every other is as it was (R69). -/
theorem hostLoad_ok {l : Nat} {r : DataReg} (hr : r ≠ .result) {v : Int} (hv : repW l v = true)
    {s : State} (h : s.Ready l) :
    ∃ t, hostLoad r v s = .ok t ∧ t.Ready l ∧ sintW (t.dataReg r) = v ∧
      ∀ q ≠ r, t.dataReg q = s.dataReg q := by
  obtain ⟨t, ht, hready, hreg, hframe⟩ :=
    hostWriteLimbs_ok hr (ds := encW l v) (j := 0) h (by rw [encW_length, Nat.zero_add])
  have hpos : 1 ≤ l := h.limbs ▸ wellFormedLimbs_pos h.regs.1
  refine ⟨t, by rw [hostLoad, h.limbs, if_pos hv, ht], hready, ?_, hframe⟩
  rw [hreg, List.take_zero, List.nil_append, sintW_encW l v hpos hv]

/-- The `LDOP` statements of a call, to different registers: each denotes its operand, and the registers
not loaded are as they were (R70). -/
theorem hostLoadAll_ok {l : Nat} {operands : List (DataReg × Int)} {s : State} (h : s.Ready l)
    (hnodup : (operands.map Prod.fst).Nodup)
    (hops : ∀ x ∈ operands, x.1 ≠ .result ∧ repW l x.2 = true) :
    ∃ t, hostLoadAll operands s = .ok t ∧ t.Ready l ∧
      (∀ x ∈ operands, sintW (t.dataReg x.1) = x.2) ∧
      ∀ q ∉ operands.map Prod.fst, t.dataReg q = s.dataReg q := by
  induction operands generalizing s with
  | nil => exact ⟨s, rfl, h, by simp, fun _ _ => rfl⟩
  | cons x rest ih =>
    obtain ⟨r, v⟩ := x
    rw [List.map_cons, List.nodup_cons] at hnodup
    obtain ⟨hfresh, hnodup⟩ := hnodup
    obtain ⟨⟨hr, hv⟩, hrest⟩ := List.forall_mem_cons.1 hops
    obtain ⟨u, hu, huready, hvalue, huframe⟩ := hostLoad_ok hr hv h
    obtain ⟨t, ht, htready, hvalues, htframe⟩ := ih huready hnodup hrest
    refine ⟨t, by simp only [hostLoadAll, hu, ht], htready, ?_, fun q hq => ?_⟩
    · exact List.forall_mem_cons.2 ⟨by rw [htframe r hfresh, hvalue], hvalues⟩
    · rw [List.map_cons, List.mem_cons, not_or] at hq
      rw [htframe q hq.2, huframe q hq.1]

/-! ## START, WAIT, GETERR and GETRES (R69) -/

/-- `START` on an idle block is the acceptance of the command (R133). -/
theorem hostStart_ok (i : Instr) {s : State} (hidle : s.status.busy = false) :
    hostStart i s = .ok (startOperation (encode i) { s with response := some (.write .okay) }) := by
  simp only [hostStart, hostWrite, cmdOffset, transact_encode_of_idle i hidle, if_true]
  rfl

/-- `RD STATUS`. -/
theorem hostRead_status (s : State) :
    hostRead statusOffset s =
      .ok (s.status.word, { s with response := some (.read .okay s.status.word) }) := rfl

/-- `WAIT` on a command just accepted: the block is left as the end of its operation leaves it, the
result being that of the command's function (R69, R136). -/
theorem hostWait_startOperation (i : Instr) (s : State) :
    ∃ r e x, commandFunction i (sintW s.opA) (sintW s.opB) (sintW s.opC) = some r ∧
      hostWait (startOperation (encode i) s) =
        .ok { r.finish { startOperation (encode i) s with eng := e } with response := x } := by
  obtain ⟨r, e, hr, hexec⟩ := exec_startOperation_eq_function i s
  have hrun : engineRunMove (startOperation (encode i) s) = exec i (startOperation (encode i) s) := by
    have hbusy : (startOperation (encode i) s).status.busy = true := rfl
    have hcmd := (commandInFlight_eq_some (startOperation (encode i) s) i).2 rfl
    simp only [engineRunMove, if_pos hbusy, hcmd]
  exact ⟨r, e,
    some (.read .okay (r.finish { startOperation (encode i) s with eng := e }).status.word), hr,
    by simp only [hostWait, hrun, hexec, hostRead_status]⟩

/-- `GETERR` reads ERRCODE where ERR is set (R69). -/
theorem hostGetError_ok (s : State) :
    hostGetError s = .ok (if s.status.err then s.status.errcode else 0#4,
      { s with response := some (.read .okay s.status.word) }) := by
  simp only [hostGetError, hostRead_status, statusWord_err, statusWord_errcode]

/-- `RD` of a limb of RESULT. -/
theorem hostRead_result {s : State} {j : Nat} (hl : s.limbs ≤ 128) (hj : j < s.limbs) :
    hostRead (limbOffset .result j) s =
      .ok (s.readLimb .result j, { s with response := some (.read .okay (s.readLimb .result j)) }) := by
  simp only [hostRead, transact_read_limb .result hl hj]

/-- Reading RESULT from limb `j` to the last gives those limbs and changes the port's answer alone. -/
theorem hostReadLimbs_ok {n j : Nat} {s : State} (h : s.RegsWf) (hn : j + n = s.limbs) :
    ∃ x, hostReadLimbs n j s = .ok (s.result.drop j, { s with response := x }) := by
  have hlen : s.result.length = s.limbs := dataReg_length h .result
  induction n generalizing j s with
  | zero => exact ⟨s.response, by rw [List.drop_of_length_le (by omega)]; rfl⟩
  | succ n ih =>
    have hj : j < s.result.length := by omega
    have hread := hostRead_result (wellFormedLimbs_le h.1) (hlen ▸ hj)
    have hdrop : s.result.drop j = s.readLimb .result j :: s.result.drop (j + 1) := by
      rw [List.drop_eq_getElem_cons hj]
      simp [State.readLimb, State.dataReg, hj]
    obtain ⟨x, hx⟩ := ih (j := j + 1)
      (s := { s with response := some (.read .okay (s.readLimb .result j)) }) h
      (by simp only; omega) hlen
    exact ⟨x, by simp only [hostReadLimbs, hread, hx, hdrop]⟩

/-- `GETRES` reads what RESULT denotes (R69). -/
theorem hostGetResult_ok {s : State} (h : s.RegsWf) :
    ∃ x, hostGetResult s = .ok (sintW s.result, { s with response := x }) := by
  obtain ⟨x, hx⟩ := hostReadLimbs_ok h (Nat.zero_add s.limbs)
  exact ⟨x, by simp only [hostGetResult, hx, List.drop_zero]⟩

/-! ## The pseudo-commands (R70) -/

theorem encW_zero (l : Nat) : encW l 0 = zeroLimbs l := by
  induction l with
  | zero => rfl
  | succ l ih => simpa [encW, zeroLimbs, List.replicate_succ] using ih

/-- A register of zeros denotes 0 (R47). -/
theorem sintW_zeroLimbs {l : Nat} (hl : 1 ≤ l) : sintW (zeroLimbs l) = 0 := by
  rw [← encW_zero, sintW_encW l 0 hl (repW_zero hl)]

/-- ERR, ERRCODE and RESULT show the outcome of an operation whose result passes the RANGE guard (R137,
R138). -/
theorem finish_shows_collected {r : OpResult} {s : State} (hl : 1 ≤ s.limbs) (h : r.Fits s.limbs) :
    (if (r.finish s).status.err then (r.finish s).status.errcode else 0#4,
      sintW (r.finish s).result) = r.collected := by
  cases r with
  | done v =>
    have hv : repW s.limbs v = true := h
    simp [OpResult.finish, complete, hv, OpResult.collected, sintW_encW s.limbs v hl hv]
  | fault code => simp [OpResult.finish, OpResult.collected, sintW_zeroLimbs hl]

/-- `START; WAIT; GETERR; GETRES` on an idle block: the outcome of the command's function on the integers
the operand registers denote (R70). -/
theorem hostCollect_ok (i : Instr) {l : Nat} {s : State} (h : s.Ready l) :
    ∃ r t, commandFunction i (sintW s.opA) (sintW s.opB) (sintW s.opC) = some r ∧
      hostCollect i s = .ok (r.collected, t) ∧ t.Ready l := by
  obtain ⟨hregs, hidle, rfl⟩ := h
  have hpos := wellFormedLimbs_pos hregs.1
  obtain ⟨r, e, x, hr, hwait⟩ :=
    hostWait_startOperation i { s with response := some (.write .okay) }
  have hfits : r.Fits s.limbs :=
    commandFunction_fits hpos (repW_dataReg hregs .opA) (repW_dataReg hregs .opB)
      (repW_dataReg hregs .opC) hr
  set accepted : State :=
    { startOperation (encode i) { s with response := some (.write .okay) } with eng := e }
  have hshows : _ = r.collected := finish_shows_collected (s := accepted) hpos hfits
  have hend : (r.finish accepted).Ready s.limbs :=
    ⟨finish_regsWf r accepted hregs, finish_busy r accepted, (finish_fields r accepted).1⟩
  obtain ⟨y, hy⟩ := hostGetResult_ok
    (s := { r.finish accepted with response := some (.read .okay (r.finish accepted).status.word) })
    hend.regs
  refine ⟨r, _, hr, ?_, hend.withResponse y⟩
  simp only [hostCollect, hostStart_ok i hidle, hwait, hostGetError_ok, hy, ← hshows]

/-- A pseudo-command on an idle block: the outcome of its function on registers that denote the operands
loaded (R70). -/
theorem hostCall_ok (i : Instr) {l : Nat} {operands : List (DataReg × Int)} {s : State}
    (h : s.Ready l) (hnodup : (operands.map Prod.fst).Nodup)
    (hops : ∀ x ∈ operands, x.1 ≠ .result ∧ repW l x.2 = true) :
    ∃ (u : State) (r : OpResult) (t : State), (∀ x ∈ operands, sintW (u.dataReg x.1) = x.2) ∧
      commandFunction i (sintW u.opA) (sintW u.opB) (sintW u.opC) = some r ∧
      hostCall i operands s = .ok (r.collected, t) ∧ t.Ready l := by
  obtain ⟨u, hu, hready, hvalues, -⟩ := hostLoadAll_ok h hnodup hops
  obtain ⟨r, t, hr, ht, htready⟩ := hostCollect_ok i hready
  exact ⟨u, r, t, hvalues, hr, by simp only [hostCall, hu, ht], htready⟩

section
variable {l : Nat} {s : State} (h : s.Ready l)
include h

theorem hostIsprime_ok {p : Int} (hp : repW l p = true) :
    ∃ r t, isprimeFunction p = some r ∧ hostIsprime p s = .ok (r.collected, t) ∧ t.Ready l := by
  obtain ⟨u, r, t, hvalues, hr, hcall⟩ :=
    hostCall_ok .isprime (operands := [(.opA, p)]) h (by simp) (by simp [hp])
  obtain rfl : sintW u.opA = p := hvalues (.opA, p) (by simp)
  exact ⟨r, t, hr, hcall⟩

theorem hostGcd_ok {x y : Int} (hx : repW l x = true) (hy : repW l y = true) :
    ∃ r t, gcdFunction x y = some r ∧ hostGcd x y s = .ok (r.collected, t) ∧ t.Ready l := by
  obtain ⟨u, r, t, hvalues, hr, hcall⟩ :=
    hostCall_ok .gcd (operands := [(.opA, x), (.opB, y)]) h (by simp) (by simp [hx, hy])
  obtain rfl : sintW u.opA = x := hvalues (.opA, x) (by simp)
  obtain rfl : sintW u.opB = y := hvalues (.opB, y) (by simp)
  exact ⟨r, t, hr, hcall⟩

theorem hostModinv_ok {a n : Int} (ha : repW l a = true) (hn : repW l n = true) :
    ∃ r t, modinvFunction a n = some r ∧ hostModinv a n s = .ok (r.collected, t) ∧ t.Ready l := by
  obtain ⟨u, r, t, hvalues, hr, hcall⟩ :=
    hostCall_ok .modinv (operands := [(.opA, a), (.opB, n)]) h (by simp) (by simp [ha, hn])
  obtain rfl : sintW u.opA = a := hvalues (.opA, a) (by simp)
  obtain rfl : sintW u.opB = n := hvalues (.opB, n) (by simp)
  exact ⟨r, t, hr, hcall⟩

theorem hostModexp_ok {b k m : Int} (hb : repW l b = true) (hk : repW l k = true)
    (hm : repW l m = true) :
    ∃ r t, modexpFunction b k m = some r ∧ hostModexp b k m s = .ok (r.collected, t) ∧
      t.Ready l := by
  obtain ⟨u, r, t, hvalues, hr, hcall⟩ :=
    hostCall_ok .modexp (operands := [(.opA, b), (.opB, k), (.opC, m)]) h (by simp)
      (by simp [hb, hk, hm])
  obtain rfl : sintW u.opA = b := hvalues (.opA, b) (by simp)
  obtain rfl : sintW u.opB = k := hvalues (.opB, k) (by simp)
  obtain rfl : sintW u.opC = m := hvalues (.opC, m) (by simp)
  exact ⟨r, t, hr, hcall⟩

end

/-- Settles O55: loading makes the operand registers denote the arguments, the engine runs the command's
function on them, and its result fits RESULT, so GETERR and GETRES collect it. -/
theorem pseudoCommandsReturnTheOutcome : Obligations.PseudoCommandsReturnTheOutcome := by
  intro s hregs hidle
  have h : s.Ready s.limbs := ⟨hregs, hidle, rfl⟩
  simp only [← State.ready_iff]
  exact ⟨fun _ hp => hostIsprime_ok h hp, fun _ _ hx hy => hostGcd_ok h hx hy,
    fun _ _ ha hn => hostModinv_ok h ha hn, fun _ _ _ hb hk hm => hostModexp_ok h hb hk hm⟩

end Sys2Proof.Machine

/-! # An operation in flight, step by step and as a whole (R136) -/

namespace Sys2Proof.Machine

section
variable {i : Instr} {s : State} (hb : s.status.busy = true) (hi : s.commandInFlight = some i)
include hb hi

/-- While an operation is in flight the engine moves by the step of its command. -/
theorem engineMove_eq_engineStepOf : engineMove s = engineStepOf i s := by
  simp only [engineMove, if_pos hb, hi]

/-- A run that its bound does not cut short is a number of single engine moves. -/
theorem exists_engineSteps_eq_runToEnd {n : Nat}
    (h : runToEnd (engineStepOf i) n s ≠ .fault .engineNotFinished) :
    ∃ k, engineSteps k s = runToEnd (engineStepOf i) n s := by
  induction n generalizing s with
  | zero => exact absurd rfl h
  | succ n ih =>
    have hmove := engineMove_eq_engineStepOf hb hi
    unfold runToEnd at h ⊢
    cases hu : engineStepOf i s with
    | fault f => exact ⟨1, by simp only [engineSteps, hmove, hu]⟩
    | refused q => exact ⟨1, by simp only [engineSteps, hmove, hu]⟩
    | next u =>
      simp only [hu] at h ⊢
      rcases engineStepOf_cases hu with ⟨e, rfl⟩ | ⟨e, r, -, rfl⟩
      · rw [if_pos hb] at h ⊢
        obtain ⟨k, hk⟩ := ih (s := { s with eng := e }) hb hi h
        exact ⟨k + 1, by simp only [engineSteps, hmove, hu, hk]⟩
      · exact ⟨1, by simp only [engineSteps, hmove, hu, finish_busy, Bool.false_eq_true, if_false]⟩

/-- All the rest of an operation at once is a number of single engine moves (R136). -/
theorem exists_engineSteps_eq_exec : ∃ k, engineSteps k s = exec i s := by
  have hrun : exec i s = runToEnd (engineStepOf i) (boundOf i s) s := by
    rw [exec_eq, runOperation, if_pos hb]
  rw [hrun]
  exact exists_engineSteps_eq_runToEnd hb hi (hrun ▸ exec_ne_unfinished i s)

end

/-- From acceptance in any state, some number of engine moves ends the operation as the command's function
returns (R81, R91, R101, R116). -/
theorem engineSteps_startOperation_eq_function (i : Instr) (s : State) :
    ∃ n e r, commandFunction i (sintW s.opA) (sintW s.opB) (sintW s.opC) = some r ∧
      engineSteps n (startOperation (encode i) s) =
        .next (r.finish { startOperation (encode i) s with eng := e }) := by
  obtain ⟨r, e, hr, hexec⟩ := exec_startOperation_eq_function i s
  obtain ⟨n, hn⟩ := exists_engineSteps_eq_exec (s := startOperation (encode i) s) rfl
    ((commandInFlight_eq_some _ i).2 rfl)
  exact ⟨n, e, r, hr, hn.trans hexec⟩

/-- The state an accepted command leaves when it completes with a representable integer (R133, R137). -/
theorem complete_startOperation_eq_succeeded (i : Instr) {s : State} {v : Int} (e : Engine)
    (hv : repW s.limbs v = true) :
    complete v { startOperation (encode i) s with eng := e } = s.succeeded i v e :=
  if_pos hv

/-- A command whose function returns an integer on the operands completes with it: the integer passes the
RANGE guard (R137, R173). -/
theorem exec_startOperation_of_done {i : Instr} {s : State} {v : Int} (h : s.RegsWf)
    (hdone : commandFunction i (sintW s.opA) (sintW s.opB) (sintW s.opC) = some (.done v)) :
    ∃ e, exec i (startOperation (encode i) s) = .next (s.succeeded i v e) := by
  obtain ⟨r, e, hr, hexec⟩ := exec_startOperation_eq_function i s
  obtain rfl : r = .done v := Option.some.inj (hr.symm.trans hdone)
  have hv : repW s.limbs v = true := commandFunction_fits (wellFormedLimbs_pos h.1)
    (repW_dataReg h .opA) (repW_dataReg h .opB) (repW_dataReg h .opC) hdone
  exact ⟨e, hexec.trans (congrArg _ (complete_startOperation_eq_succeeded i e hv))⟩

end Sys2Proof.Machine

/-! # ISPRIME (R80 to R83) -/

namespace Sys2Proof.Machine

/-! ## The engine steps -/

section
variable {s : State} (hb : s.status.busy = true) (hcmd : s.cmd = encode .isprime)
include hb hcmd

theorem engineMove_isprime : engineMove s = isprimeStep s :=
  engineMove_eq_engineStepOf hb ((commandInFlight_eq_some s .isprime).2 hcmd)

theorem engineMove_isprime_init (hs : s.eng.stage = .init) :
    engineMove s = .next
      (if s.eng.wa ≤ 1 then complete 0 { s with eng := { s.eng with wi := 2 } }
       else { s with eng := { s.eng with wi := 2, stage := .loop } }) := by
  simp only [engineMove_isprime hb hcmd, isprimeStep, hs, apply_ite Host.Outcome.next]

theorem engineMove_isprime_loop (hs : s.eng.stage = .loop) (h0 : s.eng.wi ≠ 0) :
    engineMove s = .next
      (if s.eng.wi * s.eng.wi > s.eng.wa then complete 1 s
       else if fmod s.eng.wa s.eng.wi = 0 then complete 0 s
       else { s with eng := { s.eng with wi := s.eng.wi + 1 } }) := by
  simp only [engineMove_isprime hb hcmd, isprimeStep, hs, if_neg h0, apply_ite Host.Outcome.next]

end

/-- Settles O27: the engine's move is the step of the command in flight, and the whole operation, which ends
as the function does, is a number of such moves. -/
theorem isprimeEngineSteps : Obligations.IsprimeEngineSteps :=
  ⟨fun _ hb hcmd => ⟨engineMove_isprime_init hb hcmd, engineMove_isprime_loop hb hcmd⟩,
    engineSteps_startOperation_eq_function .isprime⟩

/-! ## Trial division -/

/-- No integer above 1 and below `i` divides `p`: what the loop knows on reaching the divisor `i`. -/
def NoDivisorBelow (p i : Int) : Prop := ∀ d : Int, 1 < d → d < i → ¬ d ∣ p

theorem noDivisorBelow_two (p : Int) : NoDivisorBelow p 2 := by
  intro d h1 h2
  omega

theorem NoDivisorBelow.succ {p i : Int} (h : NoDivisorBelow p i) (hi : ¬ i ∣ p) :
    NoDivisorBelow p (i + 1) := by
  intro d h1 hd
  rcases (Int.lt_add_one_iff.1 hd).lt_or_eq with hlt | rfl
  · exact h d h1 hlt
  · exact hi

/-- Trial division may stop above the square root: of a divisor and its cofactor one is at most that
(R82). -/
theorem NoDivisorBelow.of_lt_mul_self {p i : Int} (hp : 1 < p) (hi : 0 ≤ i) (h : NoDivisorBelow p i)
    (hsq : p < i * i) : NoDivisorBelow p p := by
  rintro d h1 hd ⟨c, rfl⟩
  have hc : 1 < c := (lt_mul_iff_one_lt_right (by omega)).1 hd
  have hdi : i ≤ d := not_lt.1 fun hlt => h d h1 hlt (Dvd.intro c rfl)
  have hci : i ≤ c := not_lt.1 fun hlt => h c hc hlt (Dvd.intro_left d rfl)
  exact absurd (mul_le_mul hdi hci hi (by omega)) (not_le.2 hsq)

/-- A divisor the loop finds is a proper one. -/
theorem not_noDivisorBelow_self {p i : Int} (hi : 2 ≤ i) (hsq : i * i ≤ p) (hdvd : i ∣ p) :
    ¬ NoDivisorBelow p p :=
  fun h => h i hi ((lt_mul_self hi).trans_le hsq) hdvd

/-- The `while` from a divisor up to which none was found decides whether there is a proper divisor at
all. -/
theorem isprimeLoop_decides {p : Int} (hp : 1 < p) {n : Nat} {i : Int} {r : OpResult} (hi : 2 ≤ i)
    (hnone : NoDivisorBelow p i) (h : isprimeLoop p n i = some r) :
    (NoDivisorBelow p p ∧ r = .done 1) ∨ (¬ NoDivisorBelow p p ∧ r = .done 0) := by
  induction n generalizing i with
  | zero => cases h
  | succ n ih =>
    unfold isprimeLoop at h
    split at h
    · next hsq =>
      split at h
      · next hdvd =>
        cases h
        exact .inr ⟨not_noDivisorBelow_self hi hsq ((fmod_eq_zero_iff p i).1 hdvd), rfl⟩
      · next hdvd => exact ih (by omega) (hnone.succ (mt (fmod_eq_zero_iff p i).2 hdvd)) h
    · next hsq =>
      cases h
      exact .inl ⟨hnone.of_lt_mul_self hp (by omega) (not_le.1 hsq), rfl⟩

/-- `Exec_ISPRIME(p)` returns 1 for a prime number and 0 for every other integer (R83 (b)). -/
theorem isprimeFunction_decides {p : Int} {r : OpResult} (h : isprimeFunction p = some r)
    {_ : Decidable (1 < p ∧ NoDivisorBelow p p)} :
    r = .done (if 1 < p ∧ NoDivisorBelow p p then 1 else 0) := by
  unfold isprimeFunction at h
  split at h
  · next hp =>
    cases h
    rw [if_neg fun hprime => not_lt.2 hp hprime.1]
  · next hp =>
    have hp := not_le.1 hp
    rcases isprimeLoop_decides hp le_rfl (noDivisorBelow_two p) h with ⟨hprime, rfl⟩ | ⟨hnot, rfl⟩
    · rw [if_pos ⟨hp, hprime⟩]
    · rw [if_neg fun hprime => hnot hprime.2]

/-- Settles O32: the command completes with its function's value, which trial division decides. -/
theorem isprimeDecidesPrimality : Obligations.IsprimeDecidesPrimality := by
  intro s hs
  obtain ⟨r, -, hr, -⟩ := exec_startOperation_eq_function .isprime s
  exact exec_startOperation_of_done hs (hr.trans (congrArg some (isprimeFunction_decides hr)))

end Sys2Proof.Machine

/-! # GCD (R90 to R93) -/

namespace Sys2Proof.Machine

/-! ## The engine steps -/

section
variable {s : State} (hb : s.status.busy = true) (hcmd : s.cmd = encode .gcd)
include hb hcmd

theorem engineMove_gcd : engineMove s = gcdStep s :=
  engineMove_eq_engineStepOf hb ((commandInFlight_eq_some s .gcd).2 hcmd)

theorem engineMove_gcd_init (hs : s.eng.stage = .init) :
    engineMove s = .next { s with eng := { s.eng with stage := .loop } } := by
  simp only [engineMove_gcd hb hcmd, gcdStep, hs]

theorem engineMove_gcd_loop (hs : s.eng.stage = .loop) :
    engineMove s = .next
      (if s.eng.wb = 0 then complete s.eng.wa s
       else { s with eng := { s.eng with wa := s.eng.wb, wb := fmod s.eng.wa s.eng.wb } }) := by
  simp only [engineMove_gcd hb hcmd, gcdStep, hs, apply_ite Host.Outcome.next]

end

/-- Settles O28: the engine's move is the step of GCD, and the whole operation, which ends as the function
does, is a number of such moves. -/
theorem gcdEngineSteps : Obligations.GcdEngineSteps :=
  ⟨fun _ hb hcmd => ⟨engineMove_gcd_init hb hcmd, engineMove_gcd_loop hb hcmd⟩,
    engineSteps_startOperation_eq_function .gcd⟩

/-! ## The loop's invariant -/

/-- What the pair `(x, y)` of the loop comes to: `x` at the end, and before it the ordinary greatest common
divisor with the sign of `y` (R92). -/
def signedGcd (x y : Int) : Int := if y = 0 then x else y.sign * Int.gcd x y

/-- Euclid's step keeps the ordinary greatest common divisor, however the quotient is rounded. -/
theorem gcd_fmod (x y : Int) : Int.gcd y (fmod x y) = Int.gcd x y := by
  rw [fmod, Int.gcd_sub_mul_left_right, Int.gcd_comm]

/-- A remainder that is not zero has the sign of the divisor (R142). -/
theorem sign_fmod (x : Int) {y : Int} (hy : y ≠ 0) (hr : fmod x y ≠ 0) : (fmod x y).sign = y.sign := by
  rcases lt_or_gt_of_ne hy with hneg | hpos
  · rw [Int.sign_eq_neg_one_of_neg hneg,
      Int.sign_eq_neg_one_of_neg ((fmod_neg_range x hneg).2.lt_of_ne hr)]
  · rw [Int.sign_eq_one_of_pos hpos,
      Int.sign_eq_one_of_pos ((fmod_pos_range x hpos).1.lt_of_ne' hr)]

/-- Every iteration keeps what the pair comes to; the last one, whose remainder is zero, leaves the divisor
itself, sign and all. -/
theorem signedGcd_fmod (x : Int) {y : Int} (hy : y ≠ 0) : signedGcd y (fmod x y) = signedGcd x y := by
  have hgcd := gcd_fmod x y
  unfold signedGcd
  rw [if_neg hy]
  split
  · next hr =>
    rw [hr, Int.gcd_zero_right] at hgcd
    rw [← hgcd, Int.sign_mul_natAbs]
  · next hr => rw [hgcd, sign_fmod x hy hr]

theorem gcdLoop_returns {n : Nat} {x y : Int} {r : OpResult} (h : gcdLoop n x y = some r) :
    r = .done (signedGcd x y) := by
  induction n generalizing x y with
  | zero => cases h
  | succ n ih =>
    unfold gcdLoop at h
    split at h
    · next hy =>
      cases h
      rw [signedGcd, if_pos hy]
    · next hy => rw [ih h, signedGcd_fmod x hy]

/-- The three rows of R92. -/
theorem signedGcd_eq (x y : Int) :
    signedGcd x y =
      if y = 0 then x else if y > 0 then (Int.gcd x y : Int) else -(Int.gcd x y : Int) := by
  unfold signedGcd
  split
  · rfl
  · next hy =>
    split
    · next hpos => rw [Int.sign_eq_one_of_pos hpos, one_mul]
    · next hneg =>
      rw [Int.sign_eq_neg_one_of_neg ((not_lt.1 hneg).lt_of_ne hy), neg_one_mul]

/-- Settles O33: the command completes with its function's value, which every iteration of the loop keeps. -/
theorem gcdClosedForm : Obligations.GcdClosedForm := by
  intro s hs
  obtain ⟨r, -, hr, -⟩ := exec_startOperation_eq_function .gcd s
  have hvalue := (gcdLoop_returns hr).trans (congrArg _ (signedGcd_eq (sintW s.opA) (sintW s.opB)))
  exact exec_startOperation_of_done hs (hr.trans (congrArg some hvalue))

end Sys2Proof.Machine

/-! # MODINV (R100 to R106) -/

namespace Sys2Proof.Machine

/-! ## The engine steps -/

section
variable {s : State} (hb : s.status.busy = true) (hcmd : s.cmd = encode .modinv)
include hb hcmd

theorem engineMove_modinv : engineMove s = modinvStep s :=
  engineMove_eq_engineStepOf hb ((commandInFlight_eq_some s .modinv).2 hcmd)

theorem engineMove_modinv_init (hs : s.eng.stage = .init) :
    engineMove s = .next
      (if s.eng.wb = 1 then
        complete 0 { s with eng := { s.eng with wn0 := s.eng.wb, wx0 := 0, wx1 := 1 } }
       else { s with eng := { s.eng with wn0 := s.eng.wb, wx0 := 0, wx1 := 1, stage := .loop } }) := by
  simp only [engineMove_modinv hb hcmd, modinvStep, hs, apply_ite Host.Outcome.next]

theorem engineMove_modinv_loop (hs : s.eng.stage = .loop) :
    engineMove s = .next
      (if s.eng.wa > 1 then
        if s.eng.wb = 0 then raiseFault ErrCode.divZero s
        else { s with
          eng := { s.eng with
            wb := fmod s.eng.wa s.eng.wb
            wa := s.eng.wb
            wx0 := s.eng.wx1 - fdiv s.eng.wa s.eng.wb * s.eng.wx0
            wx1 := s.eng.wx0 } }
       else if s.eng.wx1 < 0 then complete (s.eng.wx1 + s.eng.wn0) s
       else complete s.eng.wx1 s) := by
  simp only [engineMove_modinv hb hcmd, modinvStep, hs, apply_ite Host.Outcome.next]

end

/-- Settles O29: the engine's move is the step of MODINV, and the whole operation, which ends as the
function does, is a number of such moves. -/
theorem modinvEngineSteps : Obligations.ModinvEngineSteps :=
  ⟨fun _ hb hcmd => ⟨engineMove_modinv_init hb hcmd, engineMove_modinv_loop hb hcmd⟩,
    engineSteps_startOperation_eq_function .modinv⟩

/-! ## The cofactors of a positive modulus -/

/-- The cofactors `x0`, `x1` are of opposite signs, the one or the other way round, and their magnitudes
are bounded by the modulus (R106). -/
def CofactorsAlternate (n0 a n x0 x1 : Int) : Prop :=
  CofactorsBounded n0 a n (-x0) x1 ∨ CofactorsBounded n0 a n x0 (-x1)

theorem cofactorsAlternate_start {a n : Int} (ha : 0 < a) (hn : 0 < n) :
    CofactorsAlternate n a n 0 1 :=
  .inl ⟨ha, hn.le, by simp, by simp, hn, by ring⟩

/-- An iteration exchanges the signs. -/
theorem CofactorsAlternate.next {n0 a n x0 x1 : Int} (h : CofactorsAlternate n0 a n x0 x1)
    (hn : n ≠ 0) : CofactorsAlternate n0 n (fmod a n) (x1 - fdiv a n * x0) x0 := by
  rcases h with h | h
  · right
    convert h.next hn using 1
    ring
  · left
    convert h.next hn using 1
    ring

theorem CofactorsBounded.y0_le {n0 a n y0 y1 : Int} (h : CofactorsBounded n0 a n y0 y1) : y0 ≤ n0 := by
  obtain ⟨ha, hn, hy0, hy1, -, hcomb⟩ := h
  have hle : y0 ≤ y0 * a := le_mul_of_one_le_right hy0 ha
  have hnonneg : 0 ≤ y1 * n := mul_nonneg hy1 hn
  omega

theorem CofactorsAlternate.abs_le_modulus {n0 a n x0 x1 : Int} (h : CofactorsAlternate n0 a n x0 x1) :
    |x0| ≤ n0 ∧ |x1| ≤ n0 := by
  rw [abs_le, abs_le]
  rcases h with h | h
  all_goals
    have hy0 := h.y0_le
    obtain ⟨-, -, hy0nonneg, hy1nonneg, hy1, -⟩ := h
    omega

theorem CofactorsAlternate.pair_range {n0 a n x0 x1 : Int} (h : CofactorsAlternate n0 a n x0 x1) :
    0 < a ∧ 0 ≤ n := by
  rcases h with h | h <;> exact ⟨h.a_pos, h.n_nonneg⟩

/-! ## The loop finds the inverse, or reaches a division by zero -/

/-- `r` is the inverse of `a` modulo `n` in `[1, n)`. -/
structure IsInverse (a n r : Int) : Prop where
  one_le : 1 ≤ r
  lt : r < n
  modEq : a * r ≡ 1 [ZMOD n]

/-- A value in `[0, n]` that inverts is at neither end, as 0 and `n` do not. -/
theorem IsInverse.of_mem_Icc {a n r : Int} (hn : 2 ≤ n) (h0 : 0 ≤ r) (hle : r ≤ n)
    (hmod : a * r ≡ 1 [ZMOD n]) : IsInverse a n r := by
  have hndvd : ¬ n ∣ r := fun hdvd => by
    have hone : n ∣ 1 := hmod.dvd_iff.1 (hdvd.mul_left a)
    have := Int.le_of_dvd one_pos hone
    omega
  have hne0 : r ≠ 0 := fun h => hndvd (h ▸ dvd_zero n)
  have hnen : r ≠ n := fun h => hndvd (h ▸ dvd_rfl)
  exact ⟨by omega, by omega, hmod⟩

/-- For a modulus of at least 2 the remainder 1 is congruence to 1 (R142). -/
theorem fmod_eq_one_iff {n : Int} (hn : 2 ≤ n) (v : Int) : fmod v n = 1 ↔ v ≡ 1 [ZMOD n] := by
  rw [fmod_of_pos v (by omega), Int.ModEq, Int.emod_eq_of_lt (a := 1) one_pos.le (by omega)]

/-- Modulo `n` there is one inverse in `[0, n)` only. -/
theorem IsInverse.unique {a n r r' : Int} (h : IsInverse a n r) (h0 : 0 ≤ r') (hlt : r' < n)
    (hmod : a * r' ≡ 1 [ZMOD n]) : r' = r := by
  obtain ⟨hone, hr, hinv⟩ := h
  have heq : r' ≡ r [ZMOD n] :=
    calc r' = r' * 1 := (mul_one r').symm
      _ ≡ r' * (a * r) [ZMOD n] := hinv.symm.mul_left r'
      _ = a * r' * r := by ring
      _ ≡ 1 * r [ZMOD n] := hmod.mul_right r
      _ = r := one_mul r
  rwa [Int.ModEq, Int.emod_eq_of_lt h0 hlt, Int.emod_eq_of_lt (by omega) hr] at heq

/-- The loop keeps the greatest common divisor of its pair and, modulo `n0`, that the cofactors times the
operand are the pair.  So it ends at `a = 1` with an inverse where that divisor is 1, and before a division
by zero where it is not (R102 rows 5 and 6). -/
theorem modinvLoop_returns {a0 n0 : Int} (hn0 : 2 ≤ n0) {k : Nat} {a n x0 x1 : Int} {r : OpResult}
    (hcof : CofactorsAlternate n0 a n x0 x1)
    (hx0 : a0 * x0 ≡ n [ZMOD n0]) (hx1 : a0 * x1 ≡ a [ZMOD n0])
    (h : modinvLoop n0 k a n x0 x1 = some r) :
    (Int.gcd a n = 1 ∧ ∃ v, r = .done v ∧ IsInverse a0 n0 v) ∨
      (Int.gcd a n ≠ 1 ∧ r = .fault ErrCode.divZero) := by
  induction k generalizing a n x0 x1 with
  | zero => cases h
  | succ k ih =>
    unfold modinvLoop at h
    split at h
    · next ha =>
      split at h
      · next hn =>
        cases h
        refine .inr ⟨?_, rfl⟩
        rw [hn, Int.gcd_zero_right]
        omega
      · next hn =>
        rw [← gcd_fmod]
        refine ih (hcof.next hn) ?_ hx0 h
        calc a0 * (x1 - fdiv a n * x0) = a0 * x1 - fdiv a n * (a0 * x0) := by ring
          _ ≡ a - fdiv a n * n [ZMOD n0] := hx1.sub (hx0.mul_left _)
          _ = fmod a n := by rw [mul_comm, fmod]
    · next ha =>
      obtain rfl : a = 1 := by have := hcof.pair_range; omega
      have hrange := abs_le.1 hcof.abs_le_modulus.2
      refine .inl ⟨Int.gcd_one_left n, ?_⟩
      split at h <;> cases h
      · next hneg =>
        refine ⟨_, rfl, .of_mem_Icc hn0 (by omega) (by omega) ?_⟩
        rw [mul_add]
        exact (Int.add_mul_emod_self_right ..).trans hx1
      · next hnonneg => exact ⟨_, rfl, .of_mem_Icc hn0 (not_lt.1 hnonneg) hrange.2 hx1⟩

/-! ## The rows of the outcome table (R102) -/

section
variable {a n : Int}

theorem modinvFunction_of_le_one (ha : a ≤ 1) (hn : n ≠ 1) : modinvFunction a n = some (.done 1) := by
  have hend : ¬ a > 1 := not_lt.2 ha
  simp only [modinvFunction, modinvLoop, if_neg hn, if_neg hend]
  rfl

theorem modinvFunction_of_zero (ha : 2 ≤ a) : modinvFunction a 0 = some (.fault ErrCode.divZero) := by
  have hgo : a > 1 := ha
  simp only [modinvFunction, modinvLoop, if_pos hgo]
  rfl

/-- One iteration makes the pair's first component the negative modulus, which ends the loop. -/
theorem modinvFunction_of_neg (ha : 2 ≤ a) (hn : n < 0) : modinvFunction a n = some (.done 0) := by
  have hgo : a > 1 := ha
  have hone : n ≠ 1 := by omega
  have hend : ¬ n > 1 := by omega
  simp only [modinvFunction, modinvLoop, if_neg hone, if_pos hgo, if_neg hn.ne, if_neg hend]
  rfl

theorem modinvFunction_returns {r : OpResult} (ha : 1 ≤ a) (hn : 2 ≤ n)
    (h : modinvFunction a n = some r) :
    (Int.gcd a n = 1 ∧ ∃ v, r = .done v ∧ IsInverse a n v) ∨
      (Int.gcd a n ≠ 1 ∧ r = .fault ErrCode.divZero) := by
  rw [modinvFunction, if_neg (by omega)] at h
  refine modinvLoop_returns hn (cofactorsAlternate_start ha (by omega)) ?_ ?_ h
  · rw [mul_zero]
    exact Int.modulus_modEq_zero.symm
  · rw [mul_one]

end

/-- A command whose function returns a fault code on the operands ends with that fault (R138). -/
theorem exec_startOperation_of_fault {i : Instr} {s : State} {code : ErrCode}
    (hfault : commandFunction i (sintW s.opA) (sintW s.opB) (sintW s.opC) = some (.fault code)) :
    ∃ e, exec i (startOperation (encode i) s) = .next (s.faultedWith i code e) := by
  obtain ⟨r, e, hr, hexec⟩ := exec_startOperation_eq_function i s
  obtain rfl : r = .fault code := Option.some.inj (hr.symm.trans hfault)
  exact ⟨e, hexec⟩

/-- Inside its contract MODINV, accepted in any state, completes with the inverse (R102 row 5, R103). -/
theorem exec_modinv_of_coprime {s : State} (h : s.RegsWf) (ha : 1 ≤ sintW s.opA) (hn : 2 ≤ sintW s.opB)
    (hcoprime : Int.gcd (sintW s.opA) (sintW s.opB) = 1) :
    ∃ r e, IsInverse (sintW s.opA) (sintW s.opB) r ∧
      exec .modinv (startOperation (encode .modinv) s) = .next (s.succeeded .modinv r e) := by
  obtain ⟨r, -, hr, -⟩ := exec_startOperation_eq_function .modinv s
  rcases modinvFunction_returns ha hn hr with ⟨-, v, rfl, hv⟩ | ⟨hnot, -⟩
  · obtain ⟨e, hexec⟩ := exec_startOperation_of_done h hr
    exact ⟨v, e, hv, hexec⟩
  · exact absurd hcoprime hnot

theorem exec_modinv_of_not_coprime {s : State} (ha : 1 ≤ sintW s.opA) (hn : 2 ≤ sintW s.opB)
    (hgcd : Int.gcd (sintW s.opA) (sintW s.opB) ≠ 1) :
    ∃ e, exec .modinv (startOperation (encode .modinv) s) =
      .next (s.faultedWith .modinv ErrCode.divZero e) := by
  obtain ⟨r, -, hr, -⟩ := exec_startOperation_eq_function .modinv s
  rcases modinvFunction_returns ha hn hr with ⟨hcoprime, -⟩ | ⟨-, rfl⟩
  · exact absurd hcoprime hgcd
  · exact exec_startOperation_of_fault hr

/-- Settles O34: the command ends with its function's outcome, row by row. -/
theorem modinvOutcomeTable : Obligations.ModinvOutcomeTable := by
  rintro s _ _ hs rfl rfl
  refine ⟨fun hn => ?_, fun ha hn => ?_, fun ha hn => ?_, fun ha hn => ?_, fun ha hn hg => ?_,
    fun ha hn hg => ?_⟩
  · exact exec_startOperation_of_done hs (if_pos hn)
  · exact exec_startOperation_of_done hs (modinvFunction_of_le_one ha hn)
  · exact exec_startOperation_of_fault (hn ▸ modinvFunction_of_zero ha)
  · exact exec_startOperation_of_done hs (modinvFunction_of_neg ha hn)
  · obtain ⟨r, e, ⟨hone, hlt, hmod⟩, hexec⟩ := exec_modinv_of_coprime hs (by omega) hn hg
    exact ⟨r, e, hone, hlt, hmod, hexec⟩
  · exact exec_modinv_of_not_coprime (by omega) hn hg.ne'

/-- Settles O35: the value of R102's row 5 is the inverse, and no other value in `[0, n)` is. -/
theorem modinvInsideItsContract : Obligations.ModinvInsideItsContract := by
  rintro s _ _ hs rfl rfl ha hn hg
  obtain ⟨r, e, hinv, hexec⟩ := exec_modinv_of_coprime hs ha hn hg
  have hpos : 0 < r := hinv.one_le
  exact ⟨r, e, hexec, hpos.le, hinv.lt, (fmod_eq_one_iff hn _).2 hinv.modEq, hpos.ne',
    fun r' h0 hlt hmod => hinv.unique h0 hlt ((fmod_eq_one_iff hn _).1 hmod)⟩

/-! ## The working registers during the operation (R106) -/

/-- What every engine move that leaves its operation in flight keeps, holds after any number of moves that
leave it in flight. -/
theorem engineSteps_induction {P : State → Prop}
    (hmove : ∀ {a b : State}, P a → a.status.busy = true → engineMove a = .next b →
      b.status.busy = true → P b)
    {n : Nat} {s t : State} (hs : s.status.busy = true → P s) (h : engineSteps n s = .next t)
    (ht : t.status.busy = true) : P t := by
  induction n generalizing s with
  | zero =>
    cases h
    exact hs ht
  | succ n ih =>
    unfold engineSteps at h
    split at h
    · next u hu =>
      refine ih (fun hbu => ?_) h
      rcases engineMove_cases hu with ⟨-, rfl⟩ | ⟨hb, -⟩
      · exact hs hbu
      · exact hmove (hs hb) hb hu hbu
    · cases h
    · cases h

/-- The cofactors at a test of the loop condition, for every operand pair: those of a positive operand and
modulus alternate; those of any other pair are at most 1, and at most one iteration is still to come. -/
def LoopCofactors (n0 a n x0 x1 : Int) : Prop :=
  CofactorsAlternate n0 a n x0 x1 ∨ (|x0| ≤ 1 ∧ |x1| ≤ 1 ∧ (1 < a → n ≤ 0 ∧ x0 = 0))

theorem loopCofactors_start (a n : Int) : LoopCofactors n a n 0 1 := by
  by_cases hpos : 0 < a ∧ 0 < n
  · exact .inl (cofactorsAlternate_start hpos.1 hpos.2)
  · exact .inr ⟨by simp, by simp, by omega⟩

theorem LoopCofactors.next {n0 a n x0 x1 : Int} (h : LoopCofactors n0 a n x0 x1) (ha : 1 < a)
    (hn : n ≠ 0) : LoopCofactors n0 n (fmod a n) (x1 - fdiv a n * x0) x0 := by
  rcases h with h | ⟨-, hx1, hlast⟩
  · exact .inl (h.next hn)
  · obtain ⟨hn0, rfl⟩ := hlast ha
    exact .inr ⟨by simpa using hx1, by simp, by omega⟩

theorem LoopCofactors.abs_le {n0 a n x0 x1 : Int} (h : LoopCofactors n0 a n x0 x1) :
    |x0| ≤ max |n0| 1 ∧ |x1| ≤ max |n0| 1 := by
  rcases h with h | ⟨hx0, hx1, -⟩
  · obtain ⟨hx0, hx1⟩ := h.abs_le_modulus
    have hle : n0 ≤ max |n0| 1 := (le_abs_self n0).trans (le_max_left ..)
    exact ⟨hx0.trans hle, hx1.trans hle⟩
  · exact ⟨hx0.trans (le_max_right ..), hx1.trans (le_max_right ..)⟩

/-- What the working registers of MODINV satisfy, with modulus `n0` and in flight at width `l` (R106). -/
structure ModinvInFlight (l : Nat) (n0 : Int) (s : State) : Prop where
  cmd : s.cmd = encode .modinv
  wa : repW l s.eng.wa = true
  wb : repW l s.eng.wb = true
  modulus : s.eng.stage = .init → s.eng.wb = n0
  cofactors : s.eng.stage = .loop → LoopCofactors n0 s.eng.wa s.eng.wb s.eng.wx0 s.eng.wx1

theorem startOperation_modinvInFlight {s : State} (h : s.RegsWf) :
    ModinvInFlight s.limbs (sintW s.opB) (startOperation (encode .modinv) s) where
  cmd := rfl
  wa := repW_dataReg h .opA
  wb := repW_dataReg h .opB
  modulus _ := rfl
  cofactors hs := nomatch hs

theorem ModinvInFlight.next {l : Nat} (hl : 1 ≤ l) {n0 : Int} {s t : State}
    (h : ModinvInFlight l n0 s) (hb : s.status.busy = true) (ht : engineMove s = .next t)
    (hbt : t.status.busy = true) : ModinvInFlight l n0 t := by
  obtain ⟨hcmd, hwa, hwb, hmodulus, hcof⟩ := h
  cases hs : s.eng.stage with
  | init =>
    rw [engineMove_modinv_init hb hcmd hs] at ht
    split at ht <;> cases ht
    · simp at hbt
    · refine ⟨hcmd, hwa, hwb, nofun, fun _ => ?_⟩
      rw [← hmodulus hs]
      exact loopCofactors_start _ _
  | loop =>
    rw [engineMove_modinv_loop hb hcmd hs] at ht
    split at ht
    · next ha =>
      split at ht <;> cases ht
      · cases hbt
      · next hn =>
        exact ⟨hcmd, hwb, repW_fmod hl _ hwb hn, fun hi => (nomatch hs.symm.trans hi),
          fun _ => (hcof hs).next ha hn⟩
    · split at ht <;> cases ht <;> simp at hbt

/-- Settles O38: an engine move that does not end the operation keeps its working registers' bounds. -/
theorem modinvWorkingRegistersStayBounded : Obligations.ModinvWorkingRegistersStayBounded := by
  intro s t n hs ht hbusy hstage
  obtain ⟨-, hwa, hwb, -, hcof⟩ := engineSteps_induction
    (ModinvInFlight.next (wellFormedLimbs_pos hs.1))
    (fun _ => startOperation_modinvInFlight hs) ht hbusy
  exact ⟨hwa, hwb, (hcof hstage).abs_le⟩

end Sys2Proof.Machine

/-! # MODEXP (R115 to R120) -/

namespace Sys2Proof.Machine

/-! ## The engine steps -/

section
variable {s : State} (hb : s.status.busy = true) (hcmd : s.cmd = encode .modexp)
include hb hcmd

theorem engineMove_modexp : engineMove s = modexpStep s :=
  engineMove_eq_engineStepOf hb ((commandInFlight_eq_some s .modexp).2 hcmd)

theorem engineMove_modexp_init (hs : s.eng.stage = .init) :
    engineMove s = .next
      (if s.eng.wc = 0 then raiseFault ErrCode.divZero { s with eng := { s.eng with wv := 1 } }
       else { s with
        eng := { s.eng with wv := 1, wa := fmod s.eng.wa s.eng.wc, stage := .loop } }) := by
  simp only [engineMove_modexp hb hcmd, modexpStep, hs, apply_ite Host.Outcome.next]

theorem engineMove_modexp_loop (hs : s.eng.stage = .loop) (h0 : s.eng.wc ≠ 0) :
    engineMove s = .next
      (if s.eng.wb > 0 then
        { s with
          eng := { s.eng with
            wv := modexpMultiply s.eng.wv s.eng.wa s.eng.wb s.eng.wc
            wa := fmod (s.eng.wa * s.eng.wa) s.eng.wc
            wb := fdiv s.eng.wb 2 } }
       else complete s.eng.wv s) := by
  simp only [engineMove_modexp hb hcmd, modexpStep, hs, if_neg h0, apply_ite Host.Outcome.next]

end

/-- Settles O30: the engine's move is the step of MODEXP, and the whole operation, which ends as the
function does, is a number of such moves. -/
theorem modexpEngineSteps : Obligations.ModexpEngineSteps :=
  ⟨fun _ hb hcmd => ⟨engineMove_modexp_init hb hcmd, engineMove_modexp_loop hb hcmd⟩,
    engineSteps_startOperation_eq_function .modexp⟩

/-! ## The loop's invariant -/

/-- A remainder is congruent to its dividend, whatever the sign of the divisor, and for the divisor 0
too. -/
theorem fmod_modEq (a m : Int) : fmod a m ≡ a [ZMOD m] :=
  Int.modEq_iff_dvd.2 ⟨fdiv a m, by rw [fmod, sub_sub_cancel]⟩

theorem fmod_eq_of_modEq {a b m : Int} (h : a ≡ b [ZMOD m]) : fmod a m = fmod b m := by
  obtain ⟨c, hc⟩ := h.dvd
  obtain rfl : b = a + m * c := by omega
  rw [fmod_eq, fmod_eq, Int.add_mul_fmod_self_left]

/-- What the variables of the loop come to at its end: the value itself if no iteration is left, and else
the remainder of the value times the power still to be multiplied in (R117). -/
def modexpValue (m v b e : Int) : Int := if e > 0 then fmod (v * b ^ e.toNat) m else v

section
variable {m v b e : Int}

theorem modexpValue_of_nonpos (he : e ≤ 0) : modexpValue m v b e = v := if_neg (not_lt.2 he)

theorem modexpValue_of_pos (he : 0 < e) : modexpValue m v b e = fmod (v * b ^ e.toNat) m := if_pos he

/-- Reducing the base makes no difference. -/
theorem modexpValue_fmod : modexpValue m v (fmod b m) e = modexpValue m v b e := by
  unfold modexpValue
  rw [fmod_eq_of_modEq (((fmod_modEq b m).pow e.toNat).mul_left v)]

/-- The conditional multiply makes up for the bit that halving the exponent drops. -/
theorem modexpMultiply_mul_pow (he : 0 ≤ e) :
    modexpMultiply v b e m * (b * b) ^ (fdiv e 2).toNat ≡ v * b ^ e.toNat [ZMOD m] := by
  have hhalf := fdiv_add_fmod e 2
  have hbit := fmod_pos_range e two_pos
  unfold modexpMultiply
  split
  · next hodd =>
    have hexp : e.toNat = 2 * (fdiv e 2).toNat + 1 := by omega
    calc fmod (v * b) m * (b * b) ^ (fdiv e 2).toNat
        ≡ v * b * (b * b) ^ (fdiv e 2).toNat [ZMOD m] := (fmod_modEq ..).mul_right _
      _ = v * b ^ e.toNat := by rw [hexp]; ring
  · next heven =>
    have hexp : e.toNat = 2 * (fdiv e 2).toNat := by omega
    rw [hexp, pow_mul, pow_two]

/-- Every iteration keeps what the variables come to; the last one, at the exponent 1, multiplies the base
in. -/
theorem modexpValue_next (he : 0 < e) :
    modexpValue m (modexpMultiply v b e m) (fmod (b * b) m) (fdiv e 2) = modexpValue m v b e := by
  rw [modexpValue_fmod, modexpValue_of_pos he]
  rcases lt_or_ge 0 (fdiv e 2) with hgo | hend
  · rw [modexpValue_of_pos hgo]
    exact fmod_eq_of_modEq (modexpMultiply_mul_pow he.le)
  · obtain rfl : e = 1 := by
      rw [fdiv_two] at hend
      omega
    rw [modexpValue_of_nonpos hend, Int.toNat_one, pow_one]
    exact if_pos rfl

theorem modexpLoop_returns {n : Nat} {r : OpResult} (h : modexpLoop m n v b e = some r) :
    r = .done (modexpValue m v b e) := by
  induction n generalizing v b e with
  | zero => cases h
  | succ n ih =>
    unfold modexpLoop at h
    split at h
    · next he => rw [ih h, modexpValue_next he]
    · next he =>
      cases h
      rw [modexpValue_of_nonpos (not_lt.1 he)]

theorem modexpFunction_returns {r : OpResult} (hm : m ≠ 0) (h : modexpFunction b e m = some r) :
    r = .done (modexpValue m 1 b e) := by
  rw [modexpFunction, if_neg hm] at h
  rw [modexpLoop_returns h, modexpValue_fmod]

end

/-! ## The rows of the outcome table (R117) -/

/-- With a modulus other than 0 MODEXP, accepted in any state, completes with its function's value. -/
theorem exec_modexp_of_ne_zero {s : State} (h : s.RegsWf) (hm : sintW s.opC ≠ 0) :
    ∃ e, exec .modexp (startOperation (encode .modexp) s) =
      .next (s.succeeded .modexp (modexpValue (sintW s.opC) 1 (sintW s.opA) (sintW s.opB)) e) := by
  obtain ⟨r, -, hr, -⟩ := exec_startOperation_eq_function .modexp s
  exact exec_startOperation_of_done h (hr.trans (congrArg some (modexpFunction_returns hm hr)))

theorem exec_modexp_of_pos {s : State} (h : s.RegsWf) (hm : sintW s.opC ≠ 0) (hk : 1 ≤ sintW s.opB) :
    ∃ e, exec .modexp (startOperation (encode .modexp) s) =
      .next (s.succeeded .modexp (fmod (sintW s.opA ^ (sintW s.opB).toNat) (sintW s.opC)) e) := by
  have hexec := exec_modexp_of_ne_zero h hm
  rwa [modexpValue_of_pos hk, one_mul] at hexec

/-- Settles O36: the command ends with its function's outcome, row by row. -/
theorem modexpOutcomeTable : Obligations.ModexpOutcomeTable := by
  rintro s _ _ _ hs rfl rfl rfl
  refine ⟨fun hm => ?_, fun hk hm => ?_, fun hk hm => ?_, fun hk hm => ?_⟩
  · exact exec_startOperation_of_fault (if_pos hm)
  · have hexec := exec_modexp_of_ne_zero hs hm
    rwa [modexpValue_of_nonpos hk] at hexec
  · obtain ⟨hnonneg, hlt⟩ := fmod_pos_range _ hm
    exact ⟨hnonneg, hlt, exec_modexp_of_pos hs hm.ne' hk⟩
  · obtain ⟨hlt, hnonpos⟩ := fmod_neg_range _ hm
    exact ⟨hlt, hnonpos, exec_modexp_of_pos hs hm.ne hk⟩

/-! ## The working registers during the operation (R120) -/

/-- `v` is in the range of the remainders modulo `m`: from 0, inclusive, to `m`, exclusive. -/
structure IsReduced (m v : Int) : Prop where
  of_pos : m > 0 → 0 ≤ v ∧ v < m
  of_neg : m < 0 → m < v ∧ v ≤ 0

theorem isReduced_fmod (a m : Int) : IsReduced m (fmod a m) := ⟨fmod_pos_range a, fmod_neg_range a⟩

theorem modexpMultiply_isReduced {m v : Int} (b e : Int) (h : v = 1 ∨ IsReduced m v) :
    modexpMultiply v b e m = 1 ∨ IsReduced m (modexpMultiply v b e m) := by
  unfold modexpMultiply
  split
  · exact .inr (isReduced_fmod _ m)
  · exact h

/-- What the working registers of MODEXP satisfy, with modulus `m` and in flight (R27, R120). -/
structure ModexpInFlight (m : Int) (s : State) : Prop where
  cmd : s.cmd = encode .modexp
  modulus : s.eng.wc = m
  loop : s.eng.stage = .loop →
    m ≠ 0 ∧ IsReduced m s.eng.wa ∧ (s.eng.wv = 1 ∨ IsReduced m s.eng.wv)

theorem startOperation_modexpInFlight (s : State) :
    ModexpInFlight (sintW s.opC) (startOperation (encode .modexp) s) where
  cmd := rfl
  modulus := rfl
  loop hs := nomatch hs

theorem ModexpInFlight.next {m : Int} {s t : State} (h : ModexpInFlight m s)
    (hb : s.status.busy = true) (ht : engineMove s = .next t) (hbt : t.status.busy = true) :
    ModexpInFlight m t := by
  obtain ⟨hcmd, rfl, hloop⟩ := h
  cases hs : s.eng.stage with
  | init =>
    rw [engineMove_modexp_init hb hcmd hs] at ht
    split at ht <;> cases ht
    · cases hbt
    · next hm => exact ⟨hcmd, rfl, fun _ => ⟨hm, isReduced_fmod .., .inl rfl⟩⟩
  | loop =>
    obtain ⟨hm, -, hwv⟩ := hloop hs
    rw [engineMove_modexp_loop hb hcmd hs hm] at ht
    split at ht <;> cases ht
    · exact ⟨hcmd, rfl, fun _ => ⟨hm, isReduced_fmod .., modexpMultiply_isReduced _ _ hwv⟩⟩
    · simp at hbt

/-- Settles O37: an engine move that does not end the operation leaves remainders modulo `m`, and in `wv`
else the 1 it started with. -/
theorem modexpWorkingRegistersStayReduced : Obligations.ModexpWorkingRegistersStayReduced := by
  intro s t n ht hbusy hstage
  obtain ⟨-, -, hloop⟩ := engineSteps_induction ModexpInFlight.next
    (fun _ => startOperation_modexpInFlight s) ht hbusy
  obtain ⟨-, hwa, hwv⟩ := hloop hstage
  refine ⟨fun hpos => ?_, fun hneg => ?_⟩
  · obtain ⟨hnonneg, hlt⟩ := hwa.of_pos hpos
    exact ⟨hnonneg, hlt, hwv.imp_right fun h => h.of_pos hpos⟩
  · obtain ⟨hlt, hnonpos⟩ := hwa.of_neg hneg
    exact ⟨hlt, hnonpos, hwv.imp_right fun h => h.of_neg hneg⟩

end Sys2Proof.Machine

/-! # Commands and control writes at the block's port, and the step that runs a command (R29, R130 to
R139, R142, R145, R53) -/

namespace Sys2Proof.Machine

/-! ## No command ends with the fault RANGE (R145, R172, R173) -/

/-- The only fault MODINV's `while` returns is DIV_ZERO (R100). -/
theorem modinvLoop_legal {n0 : Int} {k : Nat} {a n x0 x1 : Int} {r : OpResult}
    (h : modinvLoop n0 k a n x0 x1 = some r) : r.Legal := by
  induction k generalizing a n x0 x1 with
  | zero => cases h
  | succ k ih =>
    unfold modinvLoop at h
    split at h
    · split at h
      · cases h
        rfl
      · exact ih h
    · split at h <;> cases h <;> trivial

/-- The only fault code a command's function returns is DIV_ZERO (R100, R115, R172). -/
theorem commandFunction_legal {i : Instr} {a b c : Int} {r : OpResult}
    (h : commandFunction i a b c = some r) : r.Legal := by
  cases i with
  | isprime =>
    rw [@isprimeFunction_decides a r h (Classical.dec _)]
    trivial
  | gcd =>
    rw [gcdLoop_returns h]
    trivial
  | modinv =>
    simp only [commandFunction, modinvFunction] at h
    split at h
    · cases h
      trivial
    · exact modinvLoop_legal h
  | modexp =>
    by_cases hc : c = 0
    · simp only [commandFunction, modexpFunction, if_pos hc] at h
      cases h
      rfl
    · rw [modexpFunction_returns hc h]
      trivial

/-- Settles O39: an integer passes the RANGE guard, since the operands are representable and the
command's function keeps to them; and the one fault code the function returns is DIV_ZERO. -/
theorem rangeFaultIsUnreachable : Obligations.RangeFaultIsUnreachable := by
  intro s t i hs ht
  obtain ⟨r, -, hr, -⟩ := exec_startOperation_eq_function i s
  cases r with
  | done v =>
    obtain ⟨e, hexec⟩ := exec_startOperation_of_done hs hr
    cases ht.symm.trans hexec
    simp [State.succeeded]
  | fault code =>
    obtain ⟨e, hexec⟩ := exec_startOperation_of_fault hr
    cases ht.symm.trans hexec
    have hcode : code = ErrCode.divZero := commandFunction_legal hr
    simp [State.faultedWith, hcode, ErrCode.divZero]

/-! ## An operation as a whole, and the step (R136, R53) -/

/-- Settles O31: an operation's run to its end is a number of single engine moves. -/
theorem wholeOperationIsItsEngineSteps : Obligations.WholeOperationIsItsEngineSteps :=
  fun _ _ hb hi => exists_engineSteps_eq_exec hb hi

section
variable {s : State}

theorem engineRunMove_eq_exec {i : Instr} (hb : s.status.busy = true)
    (hi : s.commandInFlight = some i) : engineRunMove s = exec i s := by
  simp only [engineRunMove, if_pos hb, hi]

theorem engineMove_idle (hb : s.status.busy = false) : engineMove s = .next s := by
  simp [engineMove, hb]

theorem engineRunMove_idle (hb : s.status.busy = false) : engineRunMove s = .next s := by
  simp [engineRunMove, hb]

theorem commandInFlight_of_decodeBytes {i : Instr} {rest : List Byte}
    (h : decodeBytes s.commandBytes = .ok (i, rest)) : s.commandInFlight = some i := by
  simp only [State.commandInFlight, h]

theorem step_of_schedule_nil (h : s.schedule = []) : step s = engineRunMove s := by
  simp only [step, h]

theorem step_of_schedule_cons {m : Event} {rest : List Event} (h : s.schedule = m :: rest) :
    step s = move m { s with schedule := rest } := by
  simp only [step, h]

end

/-- A command placed by `withFetchWord` is one that was accepted, with the engine's run scheduled. -/
theorem withFetchWord_encode (s : State) (i : Instr) :
    s.withFetchWord 32 (encode i).toNat =
      { startOperation (encode i) s with schedule := .engineRun :: s.schedule } := by
  have hword : BitVec.ofNat 32 ((encode i).toNat % 2 ^ 32) = encode i := by
    rw [Nat.mod_eq_of_lt (encode i).isLt, BitVec.ofNat_toNat, BitVec.setWidth_eq]
  rw [State.withFetchWord, hword]

/-- Settles O26: a step is the move the schedule names, or with nothing scheduled the engine's run; and
the engine's moves run the command in CMD. -/
theorem stepRunsTheDecodedCommand : Obligations.StepRunsTheDecodedCommand := by
  refine ⟨fun s i hb hdecode _ => ?busy, fun s hb => ?idle, fun s t rest hs => ?bus, fun s i => ?fetch⟩
  case busy =>
    have hi := commandInFlight_of_decodeBytes hdecode
    refine ⟨fun hs => ?_, fun rest hs => ?_, fun rest hs => ?_⟩
    · exact (step_of_schedule_nil hs).trans (engineRunMove_eq_exec hb hi)
    · exact (step_of_schedule_cons hs).trans (engineRunMove_eq_exec hb hi)
    · exact (step_of_schedule_cons hs).trans (engineMove_eq_engineStepOf hb hi)
  case idle =>
    refine ⟨fun hs => ?_, fun rest hs => ?_, fun rest hs => ?_⟩
    · exact (step_of_schedule_nil hs).trans (engineRunMove_idle hb)
    · exact (step_of_schedule_cons hs).trans (engineRunMove_idle hb)
    · exact (step_of_schedule_cons hs).trans (engineMove_idle hb)
  case bus => exact step_of_schedule_cons hs
  case fetch =>
    rw [withFetchWord_encode, step_of_schedule_cons rfl]
    exact engineRunMove_eq_exec (s := startOperation (encode i) s) rfl
      ((commandInFlight_eq_some _ i).2 rfl)

/-! ## Floored division (R142) -/

/-- A remainder is smaller than the divisor in absolute value (R142). -/
theorem abs_fmod_lt (a : Int) {b : Int} (hb : b ≠ 0) : |fmod a b| < |b| := by
  rw [Int.abs_eq_natAbs, Int.abs_eq_natAbs]
  exact_mod_cast fmod_natAbs_lt a hb

theorem fmod_add_mul_self (a c b : Int) : fmod (a + c * b) b = fmod a b := by
  rw [fmod_eq, fmod_eq, Int.add_mul_fmod_self_right]

/-- The remainder of a product is that of the product of the remainders (R142). -/
theorem fmod_mul (a c b : Int) : fmod (a * c) b = fmod (fmod a b * fmod c b) b :=
  fmod_eq_of_modEq ((fmod_modEq a b).mul (fmod_modEq c b)).symm

/-- On natural numbers the quotient and the remainder are those of schoolbook division (R142). -/
theorem fdiv_natCast (a b : Nat) : fdiv a b = (a / b : Nat) := by
  rw [fdiv, Int.fdiv_eq_ediv_of_nonneg _ (Int.natCast_nonneg b), Int.natCast_ediv]

theorem fmod_natCast (a b : Nat) : fmod a b = (a % b : Nat) := by
  rw [fmod_eq, Int.fmod_eq_emod_of_nonneg _ (Int.natCast_nonneg b), Int.natCast_emod]

/-- Settles O6: the laws one by one; schoolbook division on the natural numbers that `a ≥ 0` and `b > 0`
are. -/
theorem flooredDivisionLaws : Obligations.FlooredDivisionLaws := by
  refine fun a b hb => ⟨(fdiv_add_fmod a b).symm, fmod_pos_range a, fmod_neg_range a, abs_fmod_lt a hb,
    fmod_eq_zero_iff a b, (fmod_eq_zero_iff a 1).2 (one_dvd a),
    (fmod_eq_zero_iff a (-1)).2 (neg_dvd.2 (one_dvd a)), fun c => fmod_add_mul_self a c b,
    fun c d => fmod_mul c d b, fun ha hpos => ?_⟩
  lift a to Nat using ha
  lift b to Nat using hpos.le
  refine ⟨fdiv_natCast a b, fmod_natCast a b, ?_, ?_⟩ <;> rw [fdiv_natCast]
  · exact Int.natCast_nonneg _
  · exact_mod_cast Nat.div_le_self a b

/-! ## Writes to STATUS, CTRL and CMD (R130, R133, R134, R139) -/

/-- Write-one-to-clear, bit by bit: a bit written 1 is cleared, a bit written 0 is kept (R139). -/
theorem writeOneToClear_eq (d : Word) (t : Status) :
    t.writeOneToClear d =
      { t with
        done := if d.getLsbD 1 then false else t.done
        wign := if d.getLsbD 3 then false else t.wign } := by
  have hclear (old written : Bool) : (old && !written) = if written then false else old := by
    cases written <;> simp
  simp only [Status.writeOneToClear, hclear]

/-- Settles O17: what the two writes store, and that DONE, once cleared, lowers `irq`. -/
theorem controlWrites : Obligations.ControlWrites := by
  intro s d
  obtain ⟨-, -, hirq, -⟩ := interruptOutput s d
  exact ⟨by rw [transact_write_status, writeOneToClear_eq], hirq, transact_write_ctrl d s⟩

/-- Settles O18: a write to CMD issues the word, and issuing is ignored while busy and otherwise decides
by the word's legality. -/
theorem commandWriteIsHandledInOrder : Obligations.CommandWriteIsHandledInOrder := by
  intro s w
  rw [transact_write_cmd]
  cases hb : s.status.busy with
  | false => rw [issueCommand_idle w s hb]; rfl
  | true => rw [issueCommand_busy w s hb]; rfl

/-- Settles O19: the write is an acceptance, and CMD then holds the command whose steps the engine
takes. -/
theorem acceptanceStartsTheOperation : Obligations.AcceptanceStartsTheOperation := by
  intro s i hb
  refine ⟨_, transact_encode_of_idle i hb, rfl, ?_, ?_⟩
  · simp [State.irq]
  · exact engineMove_eq_engineStepOf rfl ((commandInFlight_eq_some _ i).2 rfl)

/-- A write of an illegal word to CMD while idle is its refusal (R134). -/
theorem transact_illegal_of_idle {w : Word} {s : State} (hb : s.status.busy = false)
    (hw : wellFormedWord w = false) :
    transact (.write .word 0x008#12 w) s =
      { refuseCommand w s with response := some (.write .okay) } := by
  rw [transact_write_cmd, issueCommand_idle w s hb, hw]
  rfl

/-- Settles O20: the write is a refusal, which leaves BUSY as it was, clear. -/
theorem refusalOfIllegalWords : Obligations.RefusalOfIllegalWords := by
  intro s w hb hw
  refine ⟨_, transact_illegal_of_idle hb hw, ?_, ?_, engineMove_idle hb, rfl⟩
  · rw [← hb]
    rfl
  · simp [State.irq]

/-! ## How an operation ends (R137, R138) -/

theorem complete_of_repW {v : Int} {s : State} (hv : repW s.limbs v = true) :
    complete v s = { s with status := s.status.completed, result := encW s.limbs v } :=
  if_pos hv

theorem complete_of_not_repW {v : Int} {s : State} (hv : repW s.limbs v = false) :
    complete v s = raiseFault ErrCode.range s := by
  simp [complete, hv]

/-- Settles O21: the two branches of the RANGE guard; either sets DONE and clears BUSY. -/
theorem normalCompletion : Obligations.NormalCompletion := by
  refine fun s v => ⟨fun hv => ⟨s.eng, complete_of_repW hv⟩, complete_of_not_repW, ?_,
    engineMove_idle (complete_busy v s)⟩
  simp [State.irq]

/-- Settles O22: what a fault writes; it sets DONE and clears BUSY. -/
theorem faultCompletion : Obligations.FaultCompletion := by
  refine fun s code => ⟨⟨s.eng, rfl⟩, ?_, engineMove_idle rfl⟩
  simp [State.irq]

end Sys2Proof.Machine

/-! # The host procedures FIND_E, GENKEY, ENCRYPT and DECRYPT (R150 to R161) -/

namespace Sys2Proof.Machine

/-! ## The pseudo-commands on an idle block, with the values their commands come to (R70) -/

/-- Trial division decides the primality of natural numbers; no other integer passes it (R83 (b)). -/
theorem noDivisorBelow_iff_prime (p : Int) : 1 < p ∧ NoDivisorBelow p p ↔ Nat.Prime p.toNat := by
  rw [Nat.prime_def_lt']
  constructor
  · rintro ⟨hp, hnone⟩
    refine ⟨by omega, fun d h2 hd hdvd => hnone d (by omega) (by omega) ?_⟩
    rwa [← Int.toNat_of_nonneg (by omega : 0 ≤ p), Int.natCast_dvd_natCast]
  · rintro ⟨h2, hnone⟩
    refine ⟨by omega, fun d h1 hd hdvd => hnone d.toNat (by omega) (by omega) ?_⟩
    rwa [← Int.natCast_dvd_natCast, Int.toNat_of_nonneg (by omega), Int.toNat_of_nonneg (by omega)]

section
variable {l : Nat} {s : State} (h : s.Ready l)
include h

/-- What lies between 0 and a representable integer is representable (R5). -/
theorem repW_of_nonneg_of_le {b : Int} (hb : repW l b = true) (v : Int) (h0 : 0 ≤ v) (hv : v ≤ b) :
    repW l v = true :=
  repW_of_le_of_le (repW_zero (h.limbs ▸ wellFormedLimbs_pos h.regs.1)) hb h0 hv

/-- What `LDOP` has loaded is representable (R69, U13). -/
theorem repW_of_hostLoadAll_ok {operands : List (DataReg × Int)} {t : State}
    (hres : ∀ x ∈ operands, x.1 ≠ .result) (hload : hostLoadAll operands s = .ok t) :
    ∀ x ∈ operands, repW l x.2 = true := by
  induction operands generalizing s with
  | nil => simp
  | cons x rest ih =>
    obtain ⟨hr, hrest⟩ := List.forall_mem_cons.1 hres
    by_cases hv : repW l x.2 = true
    · obtain ⟨u, hu, hready, -⟩ := hostLoad_ok hr hv h
      simp only [hostLoadAll, hu] at hload
      exact List.forall_mem_cons.2 ⟨hv, ih hready hrest hload⟩
    · simp [hostLoadAll, hostLoad, h.limbs, hv] at hload

/-- A pseudo-command that answers has representable operands. -/
theorem repW_of_hostCall_ok {i : Instr} {operands : List (DataReg × Int)}
    {o : (ErrCode × Int) × State} (hres : ∀ x ∈ operands, x.1 ≠ .result)
    (hcall : hostCall i operands s = .ok o) : ∀ x ∈ operands, repW l x.2 = true := by
  unfold hostCall at hcall
  split at hcall
  · next u hload => exact repW_of_hostLoadAll_ok h hres hload
  · cases hcall

theorem hostIsprime_returns {p : Int} (hp : repW l p = true) :
    ∃ t, hostIsprime p s = .ok ((0#4, if Nat.Prime p.toNat then 1 else 0), t) ∧ t.Ready l := by
  obtain ⟨r, t, hr, hcall, hready⟩ := hostIsprime_ok h hp
  obtain rfl := @isprimeFunction_decides p r hr (decidable_of_iff' _ (noDivisorBelow_iff_prime p))
  simp only [OpResult.collected, noDivisorBelow_iff_prime] at hcall
  exact ⟨t, hcall, hready⟩

theorem hostGcd_returns {x y : Int} (hx : repW l x = true) (hy : repW l y = true) :
    ∃ t, hostGcd x y s = .ok ((0#4, signedGcd x y), t) ∧ t.Ready l := by
  obtain ⟨r, t, hr, hcall, hready⟩ := hostGcd_ok h hx hy
  obtain rfl := gcdLoop_returns hr
  exact ⟨t, hcall, hready⟩

/-- MODINV inside its contract (R103). -/
theorem hostModinv_returns {a n : Int} (ha : repW l a = true) (hn : repW l n = true) (ha1 : 1 ≤ a)
    (hn2 : 2 ≤ n) (hgcd : Int.gcd a n = 1) :
    ∃ d t, hostModinv a n s = .ok ((0#4, d), t) ∧ IsInverse a n d ∧ t.Ready l := by
  obtain ⟨r, t, hr, hcall, hready⟩ := hostModinv_ok h ha hn
  rcases modinvFunction_returns ha1 hn2 hr with ⟨-, d, rfl, hd⟩ | ⟨hnot, -⟩
  · exact ⟨d, t, hcall, hd, hready⟩
  · exact absurd hgcd hnot

/-- MODEXP for a positive exponent (R117 rows 3 and 4). -/
theorem hostModexp_returns {b k m : Int} (hb : repW l b = true) (hk : repW l k = true)
    (hm : repW l m = true) (hk1 : 1 ≤ k) (h0 : m ≠ 0) :
    ∃ t, hostModexp b k m s = .ok ((0#4, fmod (b ^ k.toNat) m), t) ∧ t.Ready l := by
  obtain ⟨r, t, hr, hcall, hready⟩ := hostModexp_ok h hb hk hm
  obtain rfl := modexpFunction_returns h0 hr
  rw [modexpValue_of_pos hk1, one_mul] at hcall
  exact ⟨t, hcall, hready⟩

/-- An ISPRIME call that answers leaves the block idle. -/
theorem ready_of_hostIsprime_ok {p : Int} {o : ErrCode × Int} {t : State}
    (hcall : hostIsprime p s = .ok (o, t)) : repW l p = true ∧ t.Ready l := by
  have hp : repW l p = true := by simpa using repW_of_hostCall_ok h (by simp) hcall
  obtain ⟨u, hu, hready⟩ := hostIsprime_returns h hp
  cases hu.symm.trans hcall
  exact ⟨hp, hready⟩

end

/-! ## FIND_E (R150, R151) -/

/-- The candidates from `c` on that end the scan of `FIND_E(k)`: GCD answers 1 exactly. -/
def acceptedFrom (k c : Int) : Set Int := {e | c ≤ e ∧ signedGcd e k = 1}

/-- `e` is the public exponent for the totient `k`. -/
def IsPublicExponent (k e : Int) : Prop := IsLeast {e : Int | 2 ≤ e ∧ Int.gcd e k = 1} e

/-- A rejected candidate may be left out. -/
theorem acceptedFrom_succ {k c : Int} (hc : signedGcd c k ≠ 1) :
    acceptedFrom k (c + 1) = acceptedFrom k c := by
  ext e
  refine and_congr_left fun he => ?_
  have hne : e ≠ c := fun hec => hc (hec ▸ he)
  omega

/-- For a positive totient the scan looks for a coprime candidate. -/
theorem acceptedFrom_of_pos {k : Int} (hk : 1 ≤ k) (c : Int) :
    acceptedFrom k c = {e | c ≤ e ∧ Int.gcd e k = 1} := by
  have hpos : 0 < k := hk
  simp only [acceptedFrom, signedGcd, if_neg hpos.ne', Int.sign_eq_one_of_pos hpos, one_mul,
    Nat.cast_eq_one]

/-- For any other totient GCD answers the candidate itself or nothing positive. -/
theorem acceptedFrom_of_nonpos {k c : Int} (hk : k ≤ 0) (hc : 2 ≤ c) : acceptedFrom k c = ∅ := by
  rw [Set.eq_empty_iff_forall_notMem]
  rintro e ⟨hce, he⟩
  rw [signedGcd_eq, if_neg (not_lt.2 hk)] at he
  split at he <;> omega

/-- `k + 1` is coprime to `k` (R151). -/
theorem succ_mem_coprime {k : Int} (hk : 1 ≤ k) : k + 1 ∈ {e : Int | 2 ≤ e ∧ Int.gcd e k = 1} :=
  ⟨by omega, by simp⟩

theorem IsPublicExponent.le_succ {k e : Int} (he : IsPublicExponent k e) (hk : 1 ≤ k) : e ≤ k + 1 :=
  he.2 (succ_mem_coprime hk)

section
variable {l : Nat} {s : State} (h : s.Ready l)
include h

/-- What the loop returns is the first candidate accepted. -/
theorem findELoop_isLeast {k : Int} {bound : Nat} {c e : Int} {t : State}
    (hfind : findELoop k bound c s = .ok (e, t)) : IsLeast (acceptedFrom k c) e ∧ t.Ready l := by
  induction bound generalizing c s with
  | zero => cases hfind
  | succ bound ih =>
    unfold findELoop at hfind
    split at hfind
    · cases hfind
    · next g u hcall =>
      have hrep : repW l c = true ∧ repW l k = true := by
        simpa using repW_of_hostCall_ok h (by simp) hcall
      obtain ⟨v, hv, hready⟩ := hostGcd_returns h hrep.1 hrep.2
      cases hv.symm.trans hcall
      split at hfind
      · next hone =>
        cases hfind
        exact ⟨⟨⟨le_rfl, hone⟩, fun _ hd => hd.1⟩, hready⟩
      · next hrejected =>
        rw [← acceptedFrom_succ hrejected]
        exact ih hready hfind

/-- With enough candidates allowed to reach a representable one that is accepted, the loop returns. -/
theorem findELoop_returns {k : Int} (hk : repW l k = true) {a : Int} (ha : repW l a = true)
    {bound : Nat} {c : Int} (hc : repW l c = true) (hmem : a ∈ acceptedFrom k c)
    (hbound : a - c < bound) : ∃ e t, findELoop k bound c s = .ok (e, t) := by
  induction bound generalizing c s with
  | zero =>
    have hca := hmem.1
    omega
  | succ bound ih =>
    obtain ⟨u, hu, hready⟩ := hostGcd_returns h hc hk
    by_cases hone : signedGcd c k = 1
    · exact ⟨c, u, by simp only [findELoop, hu, if_pos hone]⟩
    · rw [← acceptedFrom_succ hone] at hmem
      have hc' : repW l (c + 1) = true := repW_of_le_of_le hc ha (by omega) hmem.1
      obtain ⟨e, t, ht⟩ := ih hready hc' hmem (by omega)
      exact ⟨e, t, by simp only [findELoop, hu, if_neg hone, ht]⟩

theorem findE_isPublicExponent {k : Int} (hk : 1 ≤ k) {bound : Nat} {e : Int} {t : State}
    (hfind : findE bound k s = .ok (e, t)) : IsPublicExponent k e ∧ t.Ready l := by
  obtain ⟨hleast, hready⟩ := findELoop_isLeast h hfind
  rw [acceptedFrom_of_pos hk] at hleast
  exact ⟨hleast, hready⟩

/-- The scan ends at `k + 1` at the latest (R151). -/
theorem findE_returns {k : Int} (hk : 1 ≤ k) (hrep : repW l (k + 1) = true) {bound : Nat}
    (hbound : k ≤ bound) : ∃ e t, findE bound k s = .ok (e, t) := by
  have hle := repW_of_nonneg_of_le h hrep
  refine findELoop_returns h (hle k (by omega) (by omega)) hrep (hle 2 (by omega) (by omega)) ?_
    (by omega)
  rw [acceptedFrom_of_pos hk]
  exact succ_mem_coprime hk

end

/-- Settles O56: GCD's sign rejects every candidate where `k ≤ 0`; for `k ≥ 1` the scan stops at the first
coprime candidate, and `k + 1` is one. -/
theorem publicExponentSearch : Obligations.PublicExponentSearch := by
  intro s k bound hregs hidle
  have h : s.Ready s.limbs := ⟨hregs, hidle, rfl⟩
  refine ⟨fun hk hrep hbound => ?_, fun hk e t hfind => ?_⟩
  · obtain ⟨e, t, hfind⟩ := findE_returns h hk hrep hbound
    obtain ⟨hleast, -⟩ := findE_isPublicExponent h hk hfind
    exact ⟨e, t, hfind, hleast, hleast.le_succ hk⟩
  · obtain ⟨⟨hmem, -⟩, -⟩ := findELoop_isLeast h hfind
    rwa [acceptedFrom_of_nonpos hk le_rfl] at hmem

/-! ## GENKEY (R153 to R155) -/

/-- The part of GENKEY after its validations: the exponents, and the two keys. -/
def keysOfFactors (bound : Nat) (p q : Int) (s : State) : Except HostStop ((Key × Key) × State) :=
  match findE bound ((p - 1) * (q - 1)) s with
  | .error x => .error x
  | .ok (e, t) =>
    match hostModinv e ((p - 1) * (q - 1)) t with
    | .error x => .error x
    | .ok ((_, d), u) => .ok (({ n := p * q, exponent := e }, { n := p * q, exponent := d }), u)

/-- The keys GENKEY returns, public one first: the modulus `n` in both, and exponents inverse to each other
modulo the totient `k` (R155). -/
structure IsKeypair (n k : Int) (pub priv : Key) : Prop where
  pub_n : pub.n = n
  priv_n : priv.n = n
  public_exponent : IsPublicExponent k pub.exponent
  inverse : IsInverse pub.exponent k priv.exponent

section
variable {l : Nat} {s : State} (h : s.Ready l)
include h

/-- GENKEY's validations, in the order of R154. -/
theorem genkeyIntegers_eq (bound : Nat) {p q : Int} (hp : repW l p = true) (hq : repW l q = true) :
    ∃ u, u.Ready l ∧ genkeyIntegers bound p q s =
      if ¬ (Nat.Prime p.toNat ∧ Nat.Prime q.toNat) then .error .notPrime
      else if p = q then .error .equalFactors
      else keysOfFactors bound p q u := by
  obtain ⟨t, ht, hready⟩ := hostIsprime_returns h hp
  obtain ⟨u, hu, hready⟩ := hostIsprime_returns hready hq
  refine ⟨u, hready, ?_⟩
  have hnot : ((if Nat.Prime p.toNat then 1 else 0 : Int) = 0 ∨
      (if Nat.Prime q.toNat then 1 else 0 : Int) = 0) ↔
      ¬ (Nat.Prime p.toNat ∧ Nat.Prime q.toNat) := by
    simp only [ite_eq_right_iff, one_ne_zero, imp_false, not_and_or]
  simp only [genkeyIntegers, ht, hu, hnot]
  rfl

theorem repW_of_genkeyIntegers_ok {bound : Nat} {p q : Int} {o : (Key × Key) × State}
    (hgen : genkeyIntegers bound p q s = .ok o) : repW l p = true ∧ repW l q = true := by
  unfold genkeyIntegers at hgen
  split at hgen
  · cases hgen
  · next t hp =>
    obtain ⟨hp, hready⟩ := ready_of_hostIsprime_ok h hp
    split at hgen
    · cases hgen
    · next u hq => exact ⟨hp, (ready_of_hostIsprime_ok hready hq).1⟩

/-- The exponents that come after a totient of at least 2: MODINV is called inside its contract. -/
theorem keysOfFactors_isKeypair {bound : Nat} {p q : Int} (hk : 2 ≤ (p - 1) * (q - 1))
    {pub priv : Key} {t : State} (hkeys : keysOfFactors bound p q s = .ok ((pub, priv), t)) :
    IsKeypair (p * q) ((p - 1) * (q - 1)) pub priv ∧ t.Ready l := by
  unfold keysOfFactors at hkeys
  split at hkeys
  · cases hkeys
  · next e u hfind =>
    obtain ⟨he, hready⟩ := findE_isPublicExponent h (by omega) hfind
    split at hkeys
    · cases hkeys
    · next d v hcall =>
      have hrep : repW l e = true ∧ repW l ((p - 1) * (q - 1)) = true := by
        simpa using repW_of_hostCall_ok hready (by simp) hcall
      obtain ⟨d', v', hv', hd', hready'⟩ := hostModinv_returns hready hrep.1 hrep.2
        (by have := he.1.1; omega) hk he.1.2
      cases hv'.symm.trans hcall
      cases hkeys
      exact ⟨⟨rfl, rfl, he, hd'⟩, hready'⟩

theorem keysOfFactors_returns {bound : Nat} {p q : Int} (hk : 2 ≤ (p - 1) * (q - 1))
    (hrep : repW l ((p - 1) * (q - 1) + 1) = true) (hbound : (p - 1) * (q - 1) ≤ bound) :
    ∃ pub priv t, keysOfFactors bound p q s = .ok ((pub, priv), t) := by
  have hle := repW_of_nonneg_of_le h hrep
  obtain ⟨e, t, hfind⟩ := findE_returns h (by omega) hrep hbound
  obtain ⟨he, hready⟩ := findE_isPublicExponent h (by omega) hfind
  have he2 : 2 ≤ e := he.1.1
  obtain ⟨d, u, hd, -⟩ := hostModinv_returns hready
    (hle e (by omega) (he.le_succ (by omega))) (hle _ (by omega) (by omega)) (by omega) hk he.1.2
  exact ⟨⟨p * q, e⟩, ⟨p * q, d⟩, u, by simp only [keysOfFactors, hfind, hd]⟩

end

/-- Two different primes, as GENKEY validates them. -/
structure DistinctPrimes (p q : Int) : Prop where
  left : Nat.Prime p.toNat
  right : Nat.Prime q.toNat
  ne : p ≠ q

theorem DistinctPrimes.two_le {p q : Int} (hpq : DistinctPrimes p q) : 2 ≤ p ∧ 2 ≤ q := by
  have hp := hpq.left.two_le
  have hq := hpq.right.two_le
  omega

/-- One of them is at least 3. -/
theorem DistinctPrimes.totient_ge {p q : Int} (hpq : DistinctPrimes p q) :
    2 ≤ (p - 1) * (q - 1) ∧ (p - 1) * (q - 1) + 4 ≤ p * q := by
  obtain ⟨hp, hq⟩ := hpq.two_le
  have hne := hpq.ne
  constructor
  · rcases lt_or_gt_of_ne hne with hlt | hgt <;> nlinarith
  · have hsum : (p - 1) * (q - 1) + (p + q) - 1 = p * q := by ring
    omega

/-- What a GENKEY that returns has checked and computed, and that it leaves the block idle (R155). -/
theorem genkeyIntegers_isKeypair {l bound : Nat} {p q : Int} {s t : State} {pub priv : Key}
    (h : s.Ready l) (hgen : genkeyIntegers bound p q s = .ok ((pub, priv), t)) :
    DistinctPrimes p q ∧ IsKeypair (p * q) ((p - 1) * (q - 1)) pub priv ∧ t.Ready l := by
  obtain ⟨hp, hq⟩ := repW_of_genkeyIntegers_ok h hgen
  obtain ⟨u, hready, heq⟩ := genkeyIntegers_eq h bound hp hq
  rw [heq] at hgen
  split at hgen
  · cases hgen
  · next hprimes =>
    obtain ⟨hp, hq⟩ := not_not.1 hprimes
    split at hgen
    · cases hgen
    · next hne =>
      have hpq : DistinctPrimes p q := ⟨hp, hq, hne⟩
      exact ⟨hpq, keysOfFactors_isKeypair hready hpq.totient_ge.1 hgen⟩

/-- For distinct primes with a representable product GENKEY returns: all it loads is at most the product
(R159). -/
theorem genkeyIntegers_returns {l bound : Nat} {p q : Int} {s : State} (h : s.Ready l)
    (hpq : DistinctPrimes p q) (hn : repW l (p * q) = true) (hbound : (p - 1) * (q - 1) ≤ bound) :
    ∃ pub priv t, genkeyIntegers bound p q s = .ok ((pub, priv), t) := by
  have hle := repW_of_nonneg_of_le h hn
  obtain ⟨hp, hq⟩ := hpq.two_le
  obtain ⟨hk, hkn⟩ := hpq.totient_ge
  obtain ⟨u, hready, heq⟩ := genkeyIntegers_eq h bound (hle p (by omega) (by nlinarith))
    (hle q (by omega) (by nlinarith))
  rw [heq, if_neg (not_not.2 ⟨hpq.left, hpq.right⟩), if_neg hpq.ne]
  exact keysOfFactors_returns hready hk (hle _ (by omega) (by omega)) hbound

/-- Settles O57: for a product that fits every call GENKEY makes returns; and whatever it returned comes from
FIND_E and from MODINV inside its contract. -/
theorem keypairGuarantees : Obligations.KeypairGuarantees := by
  intro s bound p q hregs hidle
  have h : s.Ready s.limbs := ⟨hregs, hidle, rfl⟩
  refine ⟨fun hp hq hne hn hbound => ?_, fun t pub priv hgen => ?_⟩
  · obtain ⟨pub, priv, t, hgen⟩ := genkeyIntegers_returns h ⟨hp, hq, hne⟩ hn hbound
    obtain ⟨-, -, hready⟩ := genkeyIntegers_isKeypair h hgen
    exact ⟨pub, priv, t, hgen, State.ready_iff.1 hready⟩
  · obtain ⟨hpq, ⟨hpub, hpriv, he, hd⟩, -⟩ := genkeyIntegers_isKeypair h hgen
    obtain ⟨hk, hkn⟩ := hpq.totient_ge
    exact ⟨hpq.left, hpq.right, hpq.ne, hpub, hpriv, by omega, hk, he, he.le_succ (by omega),
      hd.modEq, hd.one_le, hd.lt⟩

/-- Settles O58: the type check comes before any command, then the primality of both, then their
distinctness. -/
theorem keypairErrorsInOrder : Obligations.KeypairErrorsInOrder := by
  intro s bound hregs hidle
  have h : s.Ready s.limbs := ⟨hregs, hidle, rfl⟩
  refine ⟨fun v => ⟨rfl, by cases v <;> rfl⟩, fun p q hp hq hnot => ?_, fun p hp hprime => ?_⟩
  · obtain ⟨u, -, heq⟩ := genkeyIntegers_eq h bound hp hq
    exact heq.trans (if_pos hnot)
  · obtain ⟨u, -, heq⟩ := genkeyIntegers_eq h bound hp hp
    exact heq.trans ((if_neg (not_not.2 ⟨hprime, hprime⟩)).trans (if_pos rfl))

/-! ## The round trip (R158) -/

/-- Fermat: an exponent that is 1 modulo `p - 1` gives every integer back modulo the prime `p`, those that
`p` divides too. -/
theorem pow_modEq_self_of_prime {p : Int} (hp : Nat.Prime p.toNat) {x : Nat} (hpos : 1 ≤ x)
    (hx : (x : Int) ≡ 1 [ZMOD p - 1]) (m : Int) : m ^ x ≡ m [ZMOD p] := by
  lift p to Nat using by have := hp.pos; omega
  rw [Int.toNat_natCast] at hp
  have hdvd : p - 1 ∣ x - 1 := by
    have hone := hp.one_le
    exact_mod_cast hx.symm.dvd
  simpa using Int.ModEq.pow_eq_pow hp hdvd hpos one_pos m

/-- Different primes are coprime, so the congruences modulo each of them combine (Chinese remainder). -/
theorem DistinctPrimes.pow_modEq_self {p q : Int} (hpq : DistinctPrimes p q) {x : Nat} (hpos : 1 ≤ x)
    (hx : (x : Int) ≡ 1 [ZMOD (p - 1) * (q - 1)]) (m : Int) : m ^ x ≡ m [ZMOD p * q] := by
  obtain ⟨hp, hq⟩ := hpq.two_le
  have hne := hpq.ne
  have hcoprime : p.natAbs.Coprime q.natAbs := by
    rw [← Int.toNat_of_nonneg (by omega : 0 ≤ p), ← Int.toNat_of_nonneg (by omega : 0 ≤ q)]
    exact (Nat.coprime_primes hpq.left hpq.right).2 (by omega)
  exact (Int.modEq_and_modEq_iff_modEq_mul hcoprime).1
    ⟨pow_modEq_self_of_prime hpq.left hpos (hx.of_mul_right _) m,
      pow_modEq_self_of_prime hpq.right hpos (hx.of_mul_left _) m⟩

/-- Raising to the exponents of the two keys in turn gives a message in `[0, n)` back. -/
theorem fmod_pow_fmod_pow_eq_self {p q m e d : Int} (hpq : DistinctPrimes p q) (he : 1 ≤ e)
    (hd : IsInverse e ((p - 1) * (q - 1)) d) (h0 : 0 ≤ m) (hlt : m < p * q) :
    fmod (fmod (m ^ e.toNat) (p * q) ^ d.toNat) (p * q) = m := by
  obtain ⟨hone, -, hinv⟩ := hd
  lift e to Nat using by omega
  lift d to Nat using by omega
  simp only [Int.toNat_natCast]
  have hback : fmod (m ^ e) (p * q) ^ d ≡ m [ZMOD p * q] :=
    calc fmod (m ^ e) (p * q) ^ d ≡ (m ^ e) ^ d [ZMOD p * q] := (fmod_modEq _ _).pow d
      _ = m ^ (e * d) := (pow_mul m e d).symm
      _ ≡ m [ZMOD p * q] :=
        hpq.pow_modEq_self (Nat.mul_pos (by omega) (by omega)) (by exact_mod_cast hinv) m
  rw [fmod_eq_of_modEq hback, fmod_of_pos m (by omega), Int.emod_eq_of_lt h0 hlt]

/-- Settles O59: both exponents are positive and every operand lies in `[0, n]`, so both MODEXP commands
complete, and their composition is the identity on `[0, n)`. -/
theorem encryptThenDecryptReturnsTheMessage : Obligations.EncryptThenDecryptReturnsTheMessage := by
  intro s t bound p q m pub priv hregs hidle hn hgen h0 hlt
  have h : s.Ready s.limbs := ⟨hregs, hidle, rfl⟩
  have hle := repW_of_nonneg_of_le h hn
  obtain ⟨hpq, ⟨hpub, hpriv, he, hd⟩, hready⟩ := genkeyIntegers_isKeypair h hgen
  obtain ⟨hk, hkn⟩ := hpq.totient_ge
  have he2 : 2 ≤ pub.exponent := he.1.1
  have hek := he.le_succ (by omega)
  have hd1 := hd.one_le
  have hdk := hd.lt
  obtain ⟨hc0, hcn⟩ := fmod_pos_range (m ^ pub.exponent.toNat) (b := p * q) (by omega)
  obtain ⟨u, hu, hready⟩ := hostModexp_returns hready (hle m h0 hlt.le)
    (hle pub.exponent (by omega) (by omega)) hn (by omega) (by omega)
  obtain ⟨v, hv, -⟩ := hostModexp_returns hready (hle _ hc0 hcn.le)
    (hle priv.exponent (by omega) (by omega)) hn hd1 (by omega)
  rw [fmod_pow_fmod_pow_eq_self hpq (by omega) hd h0 hlt] at hv
  exact ⟨_, u, v, by rw [hostEncrypt, hpub, hu], by rw [hostDecrypt, hpriv, hv]⟩

end Sys2Proof.Machine

/-! # Exceptions: the causes of DIV_ZERO (R172) -/

namespace Sys2Proof.Machine

/-! ## The operands on which a command's function returns DIV_ZERO -/

/-- R172's causes of DIV_ZERO, for the command `i` on the operands `a`, `b`, `c` in OP_A, OP_B, OP_C. -/
def DivZeroCause (i : Instr) (a b c : Int) : Prop :=
  (i = .modinv ∧ a ≥ 2 ∧ b = 0) ∨ (i = .modinv ∧ a ≥ 2 ∧ b ≥ 2 ∧ Int.gcd a b > 1) ∨
    (i = .modexp ∧ c = 0)

/-- Each row of R102, here by the modulus and then by the operand, returns DIV_ZERO always or never, except
that a greatest common divisor decides for `a ≥ 2` and `n ≥ 2`. -/
theorem modinvFunction_divZero_iff {a n : Int} {r : OpResult} (h : modinvFunction a n = some r) :
    r = .fault ErrCode.divZero ↔ a ≥ 2 ∧ (n = 0 ∨ n ≥ 2 ∧ Int.gcd a n > 1) := by
  by_cases hone : n = 1
  · rw [modinvFunction, if_pos hone] at h
    cases h
    simp [hone]
  by_cases ha : a ≤ 1
  · rw [modinvFunction_of_le_one ha hone] at h
    cases h
    simp [show ¬ 2 ≤ a by omega]
  obtain hneg | hzero | hpos := lt_trichotomy n 0
  · rw [modinvFunction_of_neg (by omega) hneg] at h
    cases h
    simp [hneg.ne, show ¬ 2 ≤ n by omega]
  · rw [hzero, modinvFunction_of_zero (by omega)] at h
    cases h
    simp [hzero, show 2 ≤ a by omega]
  · have hgcd : 0 < Int.gcd a n := Int.gcd_pos_of_ne_zero_right a hpos.ne'
    rcases modinvFunction_returns (by omega) (by omega) h with ⟨hcoprime, v, rfl, -⟩ | ⟨hnot, rfl⟩
    · simp [hpos.ne', hcoprime]
    · simp only [true_iff]
      omega

theorem modexpFunction_divZero_iff {b e m : Int} {r : OpResult} (h : modexpFunction b e m = some r) :
    r = .fault ErrCode.divZero ↔ m = 0 := by
  by_cases hm : m = 0
  · rw [modexpFunction, if_pos hm] at h
    cases h
    simp [hm]
  · simp [modexpFunction_returns hm h, hm]

/-- A command's function returns DIV_ZERO for R172's causes and no others. -/
theorem commandFunction_divZero_iff {i : Instr} {a b c : Int} {r : OpResult}
    (h : commandFunction i a b c = some r) :
    r = .fault ErrCode.divZero ↔ DivZeroCause i a b c := by
  cases i with
  | isprime => simp [@isprimeFunction_decides a r h (Classical.dec _), DivZeroCause]
  | gcd => simp [gcdLoop_returns h, DivZeroCause]
  | modinv => simp [modinvFunction_divZero_iff h, DivZeroCause, and_or_left]
  | modexp => simp [modexpFunction_divZero_iff h, DivZeroCause]

/-! ## How a command accepted in a state of proper registers ends -/

/-- An accepted command completes with the integer its function returns, or ends with the fault DIV_ZERO
where its function returns that fault; it ends in no other way. -/
theorem exec_startOperation_cases {i : Instr} {s t : State} (hs : s.RegsWf)
    (ht : exec i (startOperation (encode i) s) = .next t) :
    ∃ r e, commandFunction i (sintW s.opA) (sintW s.opB) (sintW s.opC) = some r ∧
      ((∃ v, r = .done v ∧ t = s.succeeded i v e) ∨
        (r = .fault ErrCode.divZero ∧ t = s.faultedWith i ErrCode.divZero e)) := by
  obtain ⟨r, -, hr, -⟩ := exec_startOperation_eq_function i s
  cases r with
  | done v =>
    obtain ⟨e, hexec⟩ := exec_startOperation_of_done hs hr
    cases ht.symm.trans hexec
    exact ⟨_, e, hr, .inl ⟨v, rfl, rfl⟩⟩
  | fault code =>
    obtain ⟨e, hexec⟩ := exec_startOperation_of_fault hr
    cases ht.symm.trans hexec
    obtain rfl : code = ErrCode.divZero := commandFunction_legal hr
    exact ⟨_, e, hr, .inr ⟨rfl, rfl⟩⟩

/-- Settles O40: a completion leaves ERRCODE 0, so ERRCODE is 2 just where the command's function returns
DIV_ZERO, which it does for R172's causes. -/
theorem divZeroCausesAreComplete : Obligations.DivZeroCausesAreComplete := by
  intro s t i hs ht
  obtain ⟨r, e, hr, hend⟩ := exec_startOperation_cases hs ht
  have hcause := commandFunction_divZero_iff hr
  rcases hend with ⟨v, rfl, rfl⟩ | ⟨rfl, rfl⟩
  · have hcode : (s.succeeded i v e).status.errcode ≠ 2#4 := (by decide : (0#4 : ErrCode) ≠ 2#4)
    exact ⟨iff_of_false hcode fun hc => (nomatch hcause.2 hc), fun h => absurd h hcode⟩
  · exact ⟨iff_of_true rfl (hcause.1 rfl), fun _ => ⟨e, rfl⟩⟩

end Sys2Proof.Machine

/-! # Reset, and that every operation ends (R190, R194, R209) -/

namespace Sys2Proof.Machine

/-! ## Reset (R190, R191) -/

theorem resetBlock_busy (s : State) : (resetBlock s).status.busy = false := rfl

/-- The interrupt is disabled and DONE is clear (R29, R31). -/
theorem resetBlock_irq (s : State) : (resetBlock s).irq = false := rfl

/-- Settles O24: the step is the scheduled reset, after which BUSY is clear, so that the engine does
nothing. -/
theorem resetStep : Obligations.ResetStep := by
  intro s rest hs
  have hidle := resetBlock_busy { s with schedule := rest }
  exact ⟨Engine.reset, none, resetBlock { s with schedule := rest }, step_of_schedule_cons hs, rfl,
    resetBlock_irq _, engineMove_idle hidle, engineRunMove_idle hidle⟩

/-! ## The first command after reset (R194) -/

/-- After reset every operand register denotes 0, so that is what a command's function is applied to. -/
theorem commandFunction_resetOf (i : Instr) {l : Nat} (hl : wellFormedLimbs l = true) :
    commandFunction i (sintW (State.resetOf l).opA) (sintW (State.resetOf l).opB)
      (sintW (State.resetOf l).opC) = commandFunction i 0 0 0 := by
  have hzero : sintW (List.replicate l 0#32) = 0 := sintW_zeroLimbs (wellFormedLimbs_pos hl)
  simp only [State.resetOf, hzero]

theorem isprimeFunction_of_le_one {p : Int} (hp : p ≤ 1) : isprimeFunction p = some (.done 0) := if_pos hp

theorem gcdFunction_zero (x : Int) : gcdFunction x 0 = some (.done x) := rfl

theorem modexpFunction_zero (b e : Int) : modexpFunction b e 0 = some (.fault ErrCode.divZero) :=
  if_pos rfl

/-- Settles O25: each command ends as its function does on the operands 0: ISPRIME and MODINV by the row of
an operand at most 1, GCD by that of a second operand 0, MODEXP by that of a modulus 0. -/
theorem firstCommandsAfterReset : Obligations.FirstCommandsAfterReset := by
  intro l hl
  have hregs : (State.resetOf l).RegsWf := (resetOf_inv hl).regs
  have hfun := fun i => commandFunction_resetOf i hl
  refine ⟨?isprime, ?gcd, ?modinv, ?modexp⟩
  case isprime =>
    exact exec_startOperation_of_done hregs
      ((hfun .isprime).trans (isprimeFunction_of_le_one zero_le_one))
  case gcd => exact exec_startOperation_of_done hregs ((hfun .gcd).trans (gcdFunction_zero 0))
  case modinv =>
    exact exec_startOperation_of_done hregs
      ((hfun .modinv).trans (modinvFunction_of_le_one zero_le_one zero_ne_one))
  case modexp => exact exec_startOperation_of_fault ((hfun .modexp).trans (modexpFunction_zero 0 0))

/-! ## Every operation in flight ends (R209) -/

/-- An operation run to its end leaves BUSY clear and DONE set (R137, R138). -/
theorem exec_busy_done {i : Instr} {s t : State} (hb : s.status.busy = true)
    (ht : exec i s = .next t) : t.status.busy = false ∧ t.status.done = true := by
  obtain ⟨e, r, -, rfl⟩ := exec_cases hb ht
  obtain ⟨-, -, -, -, -, -, -, -, -, hdone, -⟩ := finish_fields r { s with eng := e }
  exact ⟨finish_busy r _, hdone⟩

/-- Settles O51: the invariant gives the command in flight its working registers, from which its run
answers a next state, and that run is a number of single engine moves. -/
theorem everyAcceptedOperationCompletes : Obligations.EveryAcceptedOperationCompletes := by
  intro s h hb
  obtain ⟨i, hi, hwf⟩ := s.operationWf_iff.1 h.operation hb
  obtain ⟨t, ht⟩ := exec_next i s hwf
  obtain ⟨n, hn⟩ := exists_engineSteps_eq_exec hb hi
  obtain ⟨hidle, hdone⟩ := exec_busy_done hb ht
  exact ⟨i, t, n, hi, ht, hn.trans ht, hidle, hdone⟩

end Sys2Proof.Machine
